-- ==== Sys2Proof/Word.lean ====
section
/-! DEFINITION. The machine's one word type, the byte (R7, R10, R28: every register value, memory cell,
operand byte and immediate is an unsigned integer in 0-255), and narrowing to it. -/

namespace Sys2Proof

/-- An 8-bit value: a register, a memory cell, an operand byte, an entry of OUT. -/
abbrev Byte := BitVec 8

/-- `n mod 256` as a byte (R7, R13). -/
def byteOf (n : Nat) : Byte := BitVec.ofNat 8 n

end Sys2Proof
end

