-- ==== Sys2Proof/Config.lean ====
section
/-! DEFINITION. The implementation parameters of R5 that the machine's definitions use. Every one has the value
R5 gives; the spec leaves no value free, so there is no opaque constant here. -/

namespace Sys2Proof.Config

/-- `MEMSIZE`: addresses 0 to 255 (R5, R28). -/
def memSize : Nat := 256

/-- What a cell that nothing has written holds (R28: every cell is 0 at reset). -/
def memReset : Byte := 0

/-- `SP_RESET` (R5, R15). -/
def spReset : Byte := 0xF4

/-- The reset value of `x[0]` to `x[6]` (R10). -/
def regReset : Byte := 0

/-- The reset entry point, a fixed value and not a vector (R18, R98). -/
def pcReset : Nat := 0

/-- `LOAD_BASE` (R5, R99). -/
def loadBase : Nat := 0

/-- The longest image the loader takes (R5, R99; the spec's decision D12, log 13). -/
def maxImage : Nat := 256

end Sys2Proof.Config
end

