-- ==== Sys2Proof/Machine/State.lean ====
section
/-! DEFINITION. The whole architectural state (10_state.md R10-R27, 20_memory.md R28), the reasons a step can stop,
and the machine right after reset. The state is plain data and holds exactly what R25 and R26 allow. -/

namespace Sys2Proof.Machine

/-- The names of the 8 registers; `r7` is also the stack pointer (R10, R11, R15). -/
inductive Reg where
  | r0 | r1 | r2 | r3 | r4 | r5 | r6 | r7
deriving DecidableEq, Repr

/-- The register file: 8 registers of 8 bits, none hard-wired, none banked (R10, R11, R14). -/
structure RegFile where
  r0 : Byte
  r1 : Byte
  r2 : Byte
  r3 : Byte
  r4 : Byte
  r5 : Byte
  r6 : Byte
  r7 : Byte
deriving DecidableEq, Repr

/-- The flags register: E (equal), G (greater), L (less) (R21). Its 8-bit layout is the view `Flags.byte`;
bits 7:3 are always 0, so they are no field (D8, log 10). -/
structure Flags where
  e : Bool
  g : Bool
  l : Bool
deriving DecidableEq, Repr

/-- The three kinds of fault of the core, with the info each records (R82). A fault is a next state of the machine:
`RUN` becomes `FAULTED` with one of these (R88; log 1). -/
inductive FaultCause where
  /-- code 1: the byte fetched at `pc` is not an opcode (R83) -/
  | decodeError (opcode : Byte) (pc : Nat)
  /-- code 2: an access would use an address above 255 (R84) -/
  | addressError (addr pc : Nat)
  /-- code 3: a register-index byte is 8 or more (R85) -/
  | registerIndexError (index : Byte) (pc : Nat)
deriving DecidableEq, Repr

/-- The engine state `RUN` (R23). -/
inductive RunState where
  /-- fetches and executes instructions -/
  | running
  /-- terminal, entered by HLT -/
  | halted
  /-- terminal, entered by a fatal error -/
  | faulted (cause : FaultCause)
deriving DecidableEq, Repr

/-- Memory: (address, byte) pairs in the canonical form `Memory.wf`; an address that is not listed reads
`Config.memReset`, which is 0 (R28; log 23). -/
abbrev Memory := List Host.Cell

/-- The state of the core: exactly the table of 10_state.md. -/
structure State where
  /-- `x[0]` to `x[7]` (R10) -/
  regs : RegFile
  /-- the program counter, an integer, 0 to 256 between instructions (R18, R20; D2, log 4) -/
  pc : Nat
  /-- the flags (R21) -/
  fl : Flags
  /-- the engine state (R23) -/
  run : RunState
  /-- the output log, oldest byte first (R24) -/
  out : List Byte
  /-- the 256 cells (R28) -/
  mem : Memory
deriving DecidableEq, Repr

/-- Why the model's `step` stops. The core's own faults are NOT here: they are next states (R88). -/
inductive Fault where
  /-- Raised by `step` alone, when `RUN` is HALTED: the core has no step (R53). Safe: the machine does nothing more. -/
  | noStepHalted
  /-- Raised by `step` alone, when `RUN` is FAULTED: the core has no step (R53, R89). Safe: the machine does nothing more. -/
  | noStepFaulted (cause : FaultCause)
deriving DecidableEq, Repr

/-- Why the model gives no meaning. No instruction of this model is refused. -/
inductive Refusal where
  /-- Raised by an arm of `exec` for an instruction without a meaning; no arm does so in this model. Safe. -/
  | notModelled (mnemonic : String)
deriving DecidableEq, Repr

/-- What a meaning and a step answer. -/
abbrev Result := Host.Outcome State Fault Refusal

/-- Reset (R27, R97 step 1): `x[0]`-`x[6]` 0, SP 0xF4, pc 0, flags clear (D7, log 9), RUNNING, OUT empty, memory 0. -/
def State.reset : State where
  regs := ⟨Config.regReset, Config.regReset, Config.regReset, Config.regReset,
    Config.regReset, Config.regReset, Config.regReset, Config.spReset⟩
  pc := Config.pcReset
  fl := ⟨false, false, false⟩
  run := .running
  out := []
  mem := []

end Sys2Proof.Machine
end

