-- ==== Sys2Proof/Machine/Ops.lean ====
section
/-! DEFINITION. The named operations every meaning is written over: memory, registers, the stack pointer, the program
counter, the output port, halting, and taking a fault. -/

namespace Sys2Proof.Machine

/-! ## Memory (20_memory.md) -/

/-- The byte at address `a`: the listed one, or the reset contents (R28, R37). -/
def Memory.read : Memory → Nat → Byte
  | [], _ => Config.memReset
  | (k, v) :: m, a => if a = k then v else Memory.read m a

/-- One cell in front of a list, unless it holds what an unlisted address reads as. -/
def Memory.consCell (a : Nat) (v : Byte) (m : Memory) : Memory :=
  if v = Config.memReset then m else (a, v) :: m

/-- `mem[a] <- v`, keeping the canonical form (R30, R37). -/
def Memory.write : Memory → Nat → Byte → Memory
  | [], a, v => Memory.consCell a v []
  | (k, b) :: m, a, v =>
    if a < k then Memory.consCell a v ((k, b) :: m)
    else if a = k then Memory.consCell a v m
    else (k, b) :: Memory.write m a v

/-- Listed addresses are `lo` or more and rise strictly below `memSize`, and no listed byte is the unlisted value. -/
def Memory.wfFrom : Nat → Memory → Bool
  | _, [] => true
  | lo, (k, v) :: m =>
    decide (lo ≤ k) && decide (k < Config.memSize) && decide (v ≠ Config.memReset) && Memory.wfFrom (k + 1) m

/-- The canonical form: equal memories are equal lists. -/
def Memory.wf (m : Memory) : Bool := Memory.wfFrom 0 m

/-- `MemRead(a, 1)`; none where R30 raises `AddressError(a)`. -/
def State.memRead (s : State) (a : Nat) : Option Byte :=
  if a > 255 then none else some (s.mem.read a)

/-- `MemWrite(a, 1, v)`; none where R30 raises `AddressError(a)`. -/
def State.memWrite (s : State) (a : Nat) (v : Byte) : Option State :=
  if a > 255 then none else some { s with mem := s.mem.write a v }

/-! ## Registers (10_state.md) -/

/-- Read one register of the file. -/
def RegFile.get (f : RegFile) : Reg → Byte
  | .r0 => f.r0
  | .r1 => f.r1
  | .r2 => f.r2
  | .r3 => f.r3
  | .r4 => f.r4
  | .r5 => f.r5
  | .r6 => f.r6
  | .r7 => f.r7

/-- Write one register of the file. -/
def RegFile.set (f : RegFile) (r : Reg) (v : Byte) : RegFile :=
  match r with
  | .r0 => { f with r0 := v }
  | .r1 => { f with r1 := v }
  | .r2 => { f with r2 := v }
  | .r3 => { f with r3 := v }
  | .r4 => { f with r4 := v }
  | .r5 => { f with r5 := v }
  | .r6 => { f with r6 := v }
  | .r7 => { f with r7 := v }

/-- `x[r]`: no register is hard-wired (R11). -/
def State.reg (s : State) (r : Reg) : Byte := s.regs.get r

/-- `x[r] <- v` (R11, R13). -/
def State.setReg (s : State) (r : Reg) (v : Byte) : State := { s with regs := s.regs.set r v }

/-- `SP` is another name for `x[7]` (R8, R15). -/
def State.sp (s : State) : Byte := s.reg .r7

/-! ## The stack (43_stack_call.md) -/

/-- `x[7] <- (x[7] - 1) mod 256`, no fault at any value (R71; D5, log 7). -/
def State.spDec (s : State) : State := s.setReg .r7 (byteOf (s.sp.toNat + 255))

/-- `x[7] <- (x[7] + 1) mod 256`, no fault at any value (R72; D5, log 7). -/
def State.spInc (s : State) : State := s.setReg .r7 (byteOf (s.sp.toNat + 1))

/-- `MemWrite(x[7], 1, v)`: the address is a byte, so the check of R30 cannot fire (R71). -/
def State.storeTop (s : State) (v : Byte) : State := { s with mem := s.mem.write s.sp.toNat v }

/-- `MemRead(x[7], 1)`: the byte on top of the stack; it cannot fault (R16, R72). -/
def State.top (s : State) : Byte := s.mem.read s.sp.toNat

/-- The address a push stores to: SP after the decrement (R71). -/
def State.pushAddr (s : State) : Nat := s.spDec.sp.toNat

/-- The push primitive shared by PUSH and CALL (R71). -/
def State.push (s : State) (v : Byte) : State := s.spDec.storeTop v

/-! ## Program counter, output port, engine -/

/-- `pc <- pc + n`, an integer that does not wrap (R19, R20; D2, log 4). -/
def State.advance (s : State) (n : Nat) : State := { s with pc := s.pc + n }

/-- `pc <- t`, a byte, so in 0-255 (R20, R70). -/
def State.jump (s : State) (t : Byte) : State := { s with pc := t.toNat }

/-- A branch instruction of two bytes: to the target when taken, else past the instruction (R68, R69, R70). -/
def State.branch (s : State) (taken : Bool) (t : Byte) : State :=
  match taken with
  | true => s.jump t
  | false => s.advance 2

/-- `FL <- f` (R21). -/
def State.setFlags (s : State) (f : Flags) : State := { s with fl := f }

/-- `emit(v)`: append one byte to OUT (R8, R24). -/
def State.emit (s : State) (v : Byte) : State := { s with out := s.out ++ [v] }

/-- `halt`: `RUN <- HALTED`, pc unchanged (R8, R78; D16, log 15). -/
def State.halt (s : State) : State := { s with run := .halted }

/-! ## Taking a fault (60_exceptions.md R88)

There is no return from a fault beside it: FAULTED is terminal and no instruction leaves it (R89). -/

/-- Fault entry: `RUN <- FAULTED(K, info)`; x, pc, FL, mem and OUT keep their values. -/
def State.enterFault (s : State) (c : FaultCause) : State := { s with run := .faulted c }

/-- `raise K(info)` from the state the instruction started in: no earlier write of the instruction survives
(R8, R59, R88; D10, log 11). -/
def raiseFault (c : FaultCause) (s : State) : Result := .next (s.enterFault c)

end Sys2Proof.Machine
end

