-- ==== Sys2Proof/Machine/Operands.lean ====
section
/-! DEFINITION. The operand forms: register-index bytes (R44, R57) and the two ALU operations on register values
(R65). LDI's immediate byte is used as it stands (R44). -/

namespace Sys2Proof.Machine

/-- The number of a register (R10). -/
def Reg.index : Reg → Nat
  | .r0 => 0
  | .r1 => 1
  | .r2 => 2
  | .r3 => 3
  | .r4 => 4
  | .r5 => 5
  | .r6 => 6
  | .r7 => 7

/-- The register a register-index byte names: the whole byte counts, and 8-255 name none (R44; D4, log 6). -/
def regOf (f : Byte) : Option Reg :=
  match f.toNat with
  | 0 => some .r0
  | 1 => some .r1
  | 2 => some .r2
  | 3 => some .r3
  | 4 => some .r4
  | 5 => some .r5
  | 6 => some .r6
  | 7 => some .r7
  | _ => none

/-- `check f`, then go on with the register: `RegisterIndexError(f, pc)` when f > 7 (R57). -/
def withReg (f : Byte) (s : State) (k : Reg → Result) : Result :=
  match regOf f with
  | none => raiseFault (.registerIndexError f s.pc) s
  | some r => k r

/-- Format RR: check `ra`, then `rb` (R57). -/
def withRegs (ra rb : Byte) (s : State) (k : Reg → Reg → Result) : Result :=
  withReg ra s fun a => withReg rb s fun b => k a b

/-- The ALU has exactly two operations (R65); a request for any other cannot be written (R86; D21, log 18). -/
inductive AluOp where
  | add | mul
deriving DecidableEq, Repr

/-- Exact arithmetic on unsigned values, then modulo 256 (R7, R13, R65). -/
def alu (op : AluOp) (a b : Byte) : Byte :=
  match op with
  | .add => byteOf (a.toNat + b.toNat)
  | .mul => byteOf (a.toNat * b.toNat)

end Sys2Proof.Machine
end

