-- ==== Sys2Proof/Machine/Alu.lean ====
section
/-! DEFINITION. The ALU family: ADD and MUL (41_alu.md R63-R65). -/

namespace Sys2Proof.Machine

/-- ADD: `x[ra] <- (x[ra] + x[rb]) mod 256; pc <- pc + 3` (R63). -/
def execAdd (ra rb : Byte) (s : State) : Result :=
  withRegs ra rb s fun a b => .next ((s.setReg a (alu .add (s.reg a) (s.reg b))).advance 3)

/-- MUL: `x[ra] <- (x[ra] * x[rb]) mod 256; pc <- pc + 3` (R64). -/
def execMul (ra rb : Byte) (s : State) : Result :=
  withRegs ra rb s fun a b => .next ((s.setReg a (alu .mul (s.reg a) (s.reg b))).advance 3)

end Sys2Proof.Machine
end

