-- ==== Sys2Proof/Machine/Flags.lean ====
section
/-! DEFINITION. The flag computation of CMP (R66), the only writer of FL (R21), and FL's byte view. -/

namespace Sys2Proof.Machine

/-- Clear all three flags, then set exactly one: E if equal (checked first), G if greater, L if less,
comparing as unsigned integers (R66). -/
def compareFlags (a b : Byte) : Flags :=
  if a.toNat = b.toNat then ⟨true, false, false⟩
  else if a.toNat > b.toNat then ⟨false, true, false⟩
  else ⟨false, false, true⟩

/-- FL as a byte: E at bit 0, G at bit 1, L at bit 2, bits 7:3 zero (R21; D8, log 10). No instruction reads it. -/
def Flags.byte (f : Flags) : Byte :=
  byteOf ((if f.e then 1 else 0) + (if f.g then 2 else 0) + (if f.l then 4 else 0))

end Sys2Proof.Machine
end

