-- ==== Sys2Proof/Machine/CompareBranch.lean ====
section
/-! DEFINITION. The compare and branch family: CMP, JMP, JEQ, JNE (42_compare_branch.md R66-R70). -/

namespace Sys2Proof.Machine

/-- CMP: write E, G and L; `pc <- pc + 3` (R66). -/
def execCmp (ra rb : Byte) (s : State) : Result :=
  withRegs ra rb s fun a b => .next ((s.setFlags (compareFlags (s.reg a) (s.reg b))).advance 3)

/-- JMP: `pc <- x[ra]` (R67). -/
def execJmp (ra : Byte) (s : State) : Result :=
  withReg ra s fun a => .next (s.jump (s.reg a))

/-- JEQ: as JMP when E = 1, else `pc <- pc + 2`; the register byte is checked either way (R68; D4, log 6). -/
def execJeq (ra : Byte) (s : State) : Result :=
  withReg ra s fun a => .next (s.branch s.fl.e (s.reg a))

/-- JNE: as JMP when E = 0, else `pc <- pc + 2`; the register byte is checked either way (R69; D4, log 6). -/
def execJne (ra : Byte) (s : State) : Result :=
  withReg ra s fun a => .next (s.branch (!s.fl.e) (s.reg a))

end Sys2Proof.Machine
end

