-- ==== Sys2Proof/Machine/Control.lean ====
section
/-! DEFINITION. Control, load-immediate and output: HLT, LDI, PRN (44_control_io.md R78-R81). -/

namespace Sys2Proof.Machine

/-- HLT: `RUN <- HALTED`, pc unchanged (R78; D16, log 15). -/
def execHlt (s : State) : Result := .next s.halt

/-- LDI: `x[ra] <- imm; pc <- pc + 3`; the immediate is never checked (R79). -/
def execLdi (ra imm : Byte) (s : State) : Result :=
  withReg ra s fun a => .next ((s.setReg a imm).advance 3)

/-- PRN: `emit(x[ra]); pc <- pc + 2`, reading the register this instruction names (R80, R81). -/
def execPrn (ra : Byte) (s : State) : Result :=
  withReg ra s fun a => .next ((s.emit (s.reg a)).advance 2)

end Sys2Proof.Machine
end

