-- ==== Sys2Proof/Machine/Stack.lean ====
section
/-! DEFINITION. The stack and call family: PUSH, POP, CALL, RET (43_stack_call.md R71-R77). Each meaning keeps the
textual order of its rule's steps, which shows when the operand is R7 (D14, D15, log 14). -/

namespace Sys2Proof.Machine

/-- PUSH: decrement SP, store `x[ra]` read after the decrement, `pc <- pc + 2` (R73). -/
def execPush (ra : Byte) (s : State) : Result :=
  withReg ra s fun a => .next ((s.push (s.spDec.reg a)).advance 2)

/-- POP: `v <- mem[SP]; x[ra] <- v; SP <- SP + 1; pc <- pc + 2` (R74). -/
def execPop (ra : Byte) (s : State) : Result :=
  withReg ra s fun a => .next ((s.setReg a s.top).spInc.advance 2)

/-- CALL: the return address must be an address (D6, log 8); push it; `pc <- x[ra]` read after the push (R75). -/
def execCall (ra : Byte) (s : State) : Result :=
  withReg ra s fun a =>
    if s.pc + 2 > 255 then raiseFault (.addressError (s.pc + 2) s.pc) s
    else .next ((s.push (byteOf (s.pc + 2))).jump ((s.push (byteOf (s.pc + 2))).reg a))

/-- RET: `v <- mem[SP]; SP <- SP + 1; pc <- v` (R76). -/
def execRet (s : State) : Result := .next (s.spInc.jump s.top)

end Sys2Proof.Machine
end

