-- ==== Sys2Proof/Syntax.lean ====
section
/-! DEFINITION. The abstract syntax: one constructor per row of spec/opcode_table.json, in the table's order.
Operand bytes stand as encoded: R44 makes a register operand the whole byte, and a byte of 8 or more is a legal
encoding whose execution faults (R57, R85), so the syntax keeps it (log 6). -/

namespace Sys2Proof

/-- The 13 instructions (R45). `ra` and `rb` are register-index bytes, `imm` is LDI's immediate byte (R43, R44). -/
inductive Instr where
  /-- `01` (R78) -/
  | hlt
  /-- `82 ra imm` (R79) -/
  | ldi (ra imm : Byte)
  /-- `47 ra` (R80) -/
  | prn (ra : Byte)
  /-- `A2 ra rb` (R64) -/
  | mul (ra rb : Byte)
  /-- `45 ra` (R73) -/
  | push (ra : Byte)
  /-- `46 ra` (R74) -/
  | pop (ra : Byte)
  /-- `50 ra` (R75) -/
  | call (ra : Byte)
  /-- `11` (R76) -/
  | ret
  /-- `A0 ra rb` (R63) -/
  | add (ra rb : Byte)
  /-- `A7 ra rb` (R66) -/
  | cmp (ra rb : Byte)
  /-- `54 ra` (R67) -/
  | jmp (ra : Byte)
  /-- `55 ra` (R68) -/
  | jeq (ra : Byte)
  /-- `56 ra` (R69) -/
  | jne (ra : Byte)
deriving DecidableEq, Repr

end Sys2Proof
end

