-- ==== Sys2Proof/Decode.lean ====
section
/-! DEFINITION. The opcode map, the decoder and the encoder (30_encoding.md R42-R49). The decoder is total on any
list of bytes: it answers an instruction and the bytes after it, or a rejection by name. -/

namespace Sys2Proof

/-- The four formats of R43. -/
inductive Format where
  /-- no operand byte -/
  | n
  /-- one register-index byte -/
  | r
  /-- two register-index bytes -/
  | rr
  /-- a register-index byte, then an immediate byte -/
  | ri
deriving DecidableEq, Repr

/-- The 13 opcodes, in the order of R45's table. -/
inductive Opcode where
  | hlt | ldi | prn | mul | push | pop | call | ret | add | cmp | jmp | jeq | jne
deriving DecidableEq, Repr

/-- How many operand bytes follow the opcode byte (R43). -/
def Format.operandCount : Format → Nat
  | .n => 0
  | .r => 1
  | .rr => 2
  | .ri => 2

/-- The mnemonic of an opcode, in upper case (R45, R50); there is no other mnemonic (R51). -/
def Opcode.mnemonic : Opcode → List Char
  | .hlt => ['H', 'L', 'T']
  | .ldi => ['L', 'D', 'I']
  | .prn => ['P', 'R', 'N']
  | .mul => ['M', 'U', 'L']
  | .push => ['P', 'U', 'S', 'H']
  | .pop => ['P', 'O', 'P']
  | .call => ['C', 'A', 'L', 'L']
  | .ret => ['R', 'E', 'T']
  | .add => ['A', 'D', 'D']
  | .cmp => ['C', 'M', 'P']
  | .jmp => ['J', 'M', 'P']
  | .jeq => ['J', 'E', 'Q']
  | .jne => ['J', 'N', 'E']

/-- R45, binary column. -/
def Opcode.byte : Opcode → Byte
  | .hlt => 0b00000001
  | .ldi => 0b10000010
  | .prn => 0b01000111
  | .mul => 0b10100010
  | .push => 0b01000101
  | .pop => 0b01000110
  | .call => 0b01010000
  | .ret => 0b00010001
  | .add => 0b10100000
  | .cmp => 0b10100111
  | .jmp => 0b01010100
  | .jeq => 0b01010101
  | .jne => 0b01010110

/-- R45, format column (R43). -/
def Opcode.format : Opcode → Format
  | .hlt => .n
  | .ldi => .ri
  | .prn => .r
  | .mul => .rr
  | .push => .r
  | .pop => .r
  | .call => .r
  | .ret => .n
  | .add => .rr
  | .cmp => .rr
  | .jmp => .r
  | .jeq => .r
  | .jne => .r

/-- The length of the instruction in bytes, determined by the opcode alone (R42, R49). -/
def Opcode.length (op : Opcode) : Nat := 1 + op.format.operandCount

/-- The rows of R45, in its order. -/
def allOpcodes : List Opcode :=
  [.hlt, .ldi, .prn, .mul, .push, .pop, .call, .ret, .add, .cmp, .jmp, .jeq, .jne]

/-- Exact match of the whole byte against the 13 values; every other byte is illegal (R47; D23, log 18). -/
def opcodeOf (b : Byte) : Option Opcode := allOpcodes.find? (fun op => op.byte == b)

/-- The instruction an opcode makes of its operand bytes `b1` and `b2`; a byte its format has no place for is
ignored (R43, R58). -/
def Opcode.toInstr (op : Opcode) (b1 b2 : Byte) : Instr :=
  match op with
  | .hlt => .hlt
  | .ldi => .ldi b1 b2
  | .prn => .prn b1
  | .mul => .mul b1 b2
  | .push => .push b1
  | .pop => .pop b1
  | .call => .call b1
  | .ret => .ret
  | .add => .add b1 b2
  | .cmp => .cmp b1 b2
  | .jmp => .jmp b1
  | .jeq => .jeq b1
  | .jne => .jne b1

/-- Why a list of bytes does not begin with an instruction. -/
inductive DecodeReject where
  /-- there is no opcode byte -/
  | noOpcode
  /-- the first byte is not one of the 13 opcodes (R47) -/
  | illegalOpcode (b : Byte)
  /-- the opcode is legal and its operand byte number `k` (1 or 2) is not there (R56) -/
  | missingOperand (k : Nat)
deriving DecidableEq, Repr

/-- The first instruction of the list and the bytes after it. -/
def decode : List Byte → Except DecodeReject (Instr × List Byte)
  | [] => .error .noOpcode
  | b0 :: rest =>
    match opcodeOf b0 with
    | none => .error (.illegalOpcode b0)
    | some op =>
      if rest.length < op.format.operandCount then .error (.missingOperand (rest.length + 1))
      else .ok (op.toInstr (rest.getD 0 0) (rest.getD 1 0), rest.drop op.format.operandCount)

/-- The opcode of an instruction. -/
def Instr.opcode : Instr → Opcode
  | .hlt => .hlt
  | .ldi _ _ => .ldi
  | .prn _ => .prn
  | .mul _ _ => .mul
  | .push _ => .push
  | .pop _ => .pop
  | .call _ => .call
  | .ret => .ret
  | .add _ _ => .add
  | .cmp _ _ => .cmp
  | .jmp _ => .jmp
  | .jeq _ => .jeq
  | .jne _ => .jne

/-- The operand bytes of an instruction, in address order (R43). -/
def Instr.operandBytes : Instr → List Byte
  | .hlt => []
  | .ldi ra imm => [ra, imm]
  | .prn ra => [ra]
  | .mul ra rb => [ra, rb]
  | .push ra => [ra]
  | .pop ra => [ra]
  | .call ra => [ra]
  | .ret => []
  | .add ra rb => [ra, rb]
  | .cmp ra rb => [ra, rb]
  | .jmp ra => [ra]
  | .jeq ra => [ra]
  | .jne ra => [ra]

/-- The bytes of an instruction at ascending addresses: opcode, first operand, second operand (R32, R42). -/
def encode (i : Instr) : List Byte := i.opcode.byte :: i.operandBytes

/-- The three bytes of an opcode-table word: byte 0 is bits 7:0, byte 1 bits 15:8, byte 2 bits 23:16, and every
bit at or above `nbits` is 0. -/
def tableBytes (nbits w : Nat) : List Byte :=
  let v := w % 2 ^ nbits
  [byteOf v, byteOf (v / 256), byteOf (v / 65536)]

/-- The instruction the decoder reads from a table word. -/
def decodeTableWord (nbits w : Nat) : Option Instr :=
  match decode (tableBytes nbits w) with
  | .ok (i, _) => some i
  | .error _ => none

end Sys2Proof
end

