-- ==== Sys2Proof/Machine/Fetch.lean ====
section
/-! DEFINITION. Fetch and decode at the program counter (40_dispatch_cycle.md R54-R56), and the placing of an
instruction's bytes there. -/

namespace Sys2Proof.Machine

/-- Read `n` bytes from address `a` upward, in ascending order; the error is the first address beyond 255 (R56). -/
def readBytes (s : State) (a : Nat) : Nat → Except Nat (List Byte)
  | 0 => .ok []
  | n + 1 =>
    match s.memRead a with
    | none => .error a
    | some b =>
      match readBytes s (a + 1) n with
      | .error e => .error e
      | .ok bs => .ok (b :: bs)

/-- Opcode fetch (R54), decode (R55), then exactly the operand bytes the length calls for (R56; D3, log 5), in the
order of R60 (D10, log 11). -/
def fetch (s : State) : Except FaultCause Instr :=
  match s.memRead s.pc with
  | none => .error (.addressError s.pc s.pc)
  | some b0 =>
    match opcodeOf b0 with
    | none => .error (.decodeError b0 s.pc)
    | some op =>
      match readBytes s (s.pc + 1) op.format.operandCount with
      | .error a => .error (.addressError a s.pc)
      | .ok bs => .ok (op.toInstr (bs.getD 0 0) (bs.getD 1 0))

/-- The bytes memory holds from address `a` to 255, for stating what stands at the program counter. -/
def State.bytesFrom (s : State) (a : Nat) : List Byte :=
  (List.range (Config.memSize - a)).map (fun k => s.mem.read (a + k))

/-- Bytes written at ascending addresses from `a`, those at or above 256 dropped. -/
def Memory.place : Memory → Nat → List Byte → Memory
  | m, _, [] => m
  | m, a, b :: bs => Memory.place (if a < Config.memSize then m.write a b else m) (a + 1) bs

end Sys2Proof.Machine
end

