-- ==== Sys2Proof/Machine/Step.lean ====
section
/-! DEFINITION. One step of the core (40_dispatch_cycle.md R53, R62), and the placing of a table word where the next
step fetches. -/

namespace Sys2Proof.Machine

/-- One whole instruction. Enabled exactly when `RUN = RUNNING`; in a terminal state the core has no step, and the
model stops by name (R53, R61; log 2). A fault of the fetch is taken as R88 says. -/
def step (s : State) : Host.Outcome State Fault Refusal :=
  match s.run with
  | .halted => .fault .noStepHalted
  | .faulted c => .fault (.noStepFaulted c)
  | .running =>
    match fetch s with
    | .error c => raiseFault c s
    | .ok i => exec i s

/-- `s` with a table word's three bytes at the program counter, and the engine running so that it fetches them
(log 3). Bytes that would lie beyond address 255 are dropped, and the fetch then faults as R56 says. -/
def State.withFetchWord (s : State) (nbits w : Nat) : State :=
  { s with run := .running, mem := s.mem.place s.pc (tableBytes nbits w) }

end Sys2Proof.Machine
end

