-- ==== Sys2Proof/Machine/HostPort.lean ====
section
/-! DEFINITION. The host's side of a run: the program load before the first step (R97-R101), the image text
(R52, R100), and the status a run reports at its end (R82, R93). -/

namespace Sys2Proof.Machine

/-! ## Loading an image -/

/-- The host's own error before a run; it is no fault of the core (R87). -/
inductive HostError where
  | configurationError
deriving DecidableEq, Repr

/-- `for i in 0 .. n-1: mem[a + i] <- img[i]` (R99). -/
def loadFrom : Nat → List Byte → Memory → Memory
  | _, [], m => m
  | a, b :: bs, m => loadFrom (a + 1) bs (m.write a b)

/-- Reset, then the load: the state the first step starts from (R97, R99, R101). An image of more than 256 bytes
means no run, with no partial load (R100; D12, log 13). -/
def boot (img : List Byte) : Except HostError State :=
  if img.length ≤ Config.maxImage then
    .ok { State.reset with mem := loadFrom Config.loadBase img State.reset.mem }
  else .error .configurationError

/-! ## The image text of R52 (log 21) -/

/-- The pieces of a text between occurrences of `c`. -/
def splitAtChar (c : Char) : List Char → List (List Char)
  | [] => [[]]
  | x :: xs =>
    if x = c then [] :: splitAtChar c xs
    else
      match splitAtChar c xs with
      | [] => [[x]]
      | l :: ls => (x :: l) :: ls

/-- White space inside a line. -/
def isBlank (c : Char) : Bool := c == ' ' || c == '\t' || c == '\r'

/-- A text without white space at its two ends. -/
def strip (l : List Char) : List Char := ((l.dropWhile isBlank).reverse.dropWhile isBlank).reverse

/-- A base-2 integer: a non-empty text of `0` and `1`, most significant digit first. -/
def parseBinary (l : List Char) : Option Nat :=
  if l ≠ [] && l.all (fun c => c == '0' || c == '1') then
    some (l.foldl (fun n c => 2 * n + (if c == '1' then 1 else 0)) 0)
  else none

/-- One line: none is an error, `some none` a line to skip, `some (some b)` a byte. -/
def parseImageLine (l : List Char) : Option (Option Byte) :=
  let t := strip (l.takeWhile (fun c => c != '#'))
  if t = [] then some none
  else
    match parseBinary t with
    | none => none
    | some n => if n ≤ 255 then some (some (byteOf n)) else none

/-- The bytes of an image text, in order (R52); none where the file cannot be read as an image (R100). -/
def parseImage (txt : List Char) : Option (List Byte) :=
  ((splitAtChar '\n' txt).mapM parseImageLine).map (List.filterMap id)

/-- Boot from an image text (R52, R87, R100). -/
def bootText (txt : List Char) : Except HostError State :=
  match parseImage txt with
  | none => .error .configurationError
  | some img => boot img

/-- A byte as the 8-character binary literal of R52, most significant bit first. -/
def byteText (b : Byte) : List Char :=
  (List.range 8).map (fun k => if b.getLsbD (7 - k) then '1' else '0')

/-- The image text of a list of bytes: one literal a line (R52). -/
def imageText (img : List Byte) : List Char := img.flatMap (fun b => byteText b ++ ['\n'])

/-! ## What a run reports -/

/-- The cause code of a fault: a label only, not visible to programs (R82; D9, log 20). -/
def FaultCause.code : FaultCause → Nat
  | .decodeError _ _ => 1
  | .addressError _ _ => 2
  | .registerIndexError _ _ => 3

/-- The exit status the host gives a terminal state; none while the run goes on (R93). -/
def RunState.exitStatus : RunState → Option Nat
  | .running => none
  | .halted => some 0
  | .faulted _ => some 1

/-- The exit status where there was no run (R93, last row). -/
def HostError.exitStatus : HostError → Nat
  | .configurationError => 1

end Sys2Proof.Machine
end

