-- ==== Sys2Proof/Machine/Assembly.lean ====
section
/-! DEFINITION. The assembly syntax of R50 and R51, as functions on lists of characters: reading a program's text into
instructions and bytes, and writing one instruction in its canonical spelling (D22; log 22). Nothing here affects
execution. -/

namespace Sys2Proof.Machine

/-- The opcode a mnemonic stands for. -/
def opcodeNamed (l : List Char) : Option Opcode := allOpcodes.find? (fun op => op.mnemonic == l)

/-- The value of a digit, up to hexadecimal. -/
def digitValue (c : Char) : Option Nat :=
  let n := c.toNat
  if 48 ≤ n && n ≤ 57 then some (n - 48)
  else if 65 ≤ n && n ≤ 70 then some (n - 55)
  else if 97 ≤ n && n ≤ 102 then some (n - 87)
  else none

/-- A non-empty run of digits below `base`, most significant first, after the digits that make `acc`. -/
def parseDigits (base : Nat) : Nat → List Char → Option Nat
  | acc, [] => some acc
  | acc, c :: cs =>
    match digitValue c with
    | none => none
    | some d => if d < base then parseDigits base (base * acc + d) cs else none

/-- `R0` to `R7` in either case, or `SP` for `R7` (R50). -/
def parseReg : List Char → Option Byte
  | ['S', 'P'] => some 7
  | [c, d] =>
    if (c == 'R' || c == 'r') && 48 ≤ d.toNat && d.toNat ≤ 55 then some (byteOf (d.toNat - 48)) else none
  | _ => none

/-- Decimal 0-255, `0xHH`, or `0bXXXXXXXX`; anything else is an assembly error (R50). -/
def parseImm : List Char → Option Byte
  | '0' :: 'x' :: ds => if ds.length = 2 then (parseDigits 16 0 ds).map byteOf else none
  | '0' :: 'b' :: ds => if ds.length = 8 then (parseDigits 2 0 ds).map byteOf else none
  | [] => none
  | ds =>
    match parseDigits 10 0 ds with
    | none => none
    | some n => if n ≤ 255 then some (byteOf n) else none

/-- The operands after a mnemonic, separated by commas (R50). -/
def parseOperands (rest : List Char) : List (List Char) :=
  if strip rest = [] then [] else (splitAtChar ',' rest).map strip

/-- The instruction an opcode makes of its operands' spellings, in encoding order (R50). -/
def buildInstr (op : Opcode) (ops : List (List Char)) : Option Instr :=
  match op.format, ops with
  | .n, [] => some (op.toInstr 0 0)
  | .r, [a] =>
    match parseReg a with
    | some ra => some (op.toInstr ra 0)
    | none => none
  | .rr, [a, b] =>
    match parseReg a, parseReg b with
    | some ra, some rb => some (op.toInstr ra rb)
    | _, _ => none
  | .ri, [a, i] =>
    match parseReg a, parseImm i with
    | some ra, some imm => some (op.toInstr ra imm)
    | _, _ => none
  | _, _ => none

/-- One statement: the mnemonic, then its operands (R50). -/
def parseStatement (l : List Char) : Option Instr :=
  let t := strip l
  match opcodeNamed (t.takeWhile (fun c => !isBlank c)) with
  | none => none
  | some op => buildInstr op (parseOperands (t.dropWhile (fun c => !isBlank c)))

/-- The statements of a text: lines, and `;` between statements of one line (R50); empty ones are skipped. -/
def statementsOf (txt : List Char) : List (List Char) :=
  ((splitAtChar '\n' txt).flatMap (splitAtChar ';')).filter (fun l => !(strip l).isEmpty)

/-- The image a program's text assembles to; none is an assembly error (R50). -/
def assemble (txt : List Char) : Option (List Byte) :=
  ((statementsOf txt).mapM parseStatement).map (List.flatMap encode)

/-- A digit 0-15 as a character. -/
def digitChar (n : Nat) : Char := if n < 10 then Char.ofNat (48 + n) else Char.ofNat (55 + n)

/-- `R0` to `R7` for a byte that names a register. -/
def regText (f : Byte) : List Char := ['R', digitChar f.toNat]

/-- An immediate in the form `0xHH`. -/
def immText (b : Byte) : List Char := ['0', 'x', digitChar (b.toNat / 16), digitChar (b.toNat % 16)]

/-- The operands of an instruction, separated by commas, in encoding order. -/
def operandText : Instr → List Char
  | .hlt => []
  | .ldi ra imm => ' ' :: (regText ra ++ ',' :: immText imm)
  | .prn ra => ' ' :: regText ra
  | .mul ra rb => ' ' :: (regText ra ++ ',' :: regText rb)
  | .push ra => ' ' :: regText ra
  | .pop ra => ' ' :: regText ra
  | .call ra => ' ' :: regText ra
  | .ret => []
  | .add ra rb => ' ' :: (regText ra ++ ',' :: regText rb)
  | .cmp ra rb => ' ' :: (regText ra ++ ',' :: regText rb)
  | .jmp ra => ' ' :: regText ra
  | .jeq ra => ' ' :: regText ra
  | .jne ra => ' ' :: regText ra

/-- The canonical spelling of a well-formed instruction (R50), such as `LDI R0,0x08`. -/
def instrText (i : Instr) : List Char := i.opcode.mnemonic ++ operandText i

end Sys2Proof.Machine
end

