-- ==== Sys2Proof/WellFormed.lean ====
section
/-! DEFINITION. Well-formed instructions: every register-index byte names a register (R11, R44). An instruction that
is not well formed still decodes and still runs; what it does is raise RegisterIndexError (R57, R85). -/

namespace Sys2Proof

/-- The byte names a register: its value is 0 to 7 (R44). -/
def namesRegister (f : Byte) : Bool := decide (f.toNat ≤ 7)

/-- Every register-index byte of the format names a register; the immediate of LDI is never checked (R57). -/
def Instr.wellFormed : Instr → Bool
  | .hlt => true
  | .ldi ra _ => namesRegister ra
  | .prn ra => namesRegister ra
  | .mul ra rb => namesRegister ra && namesRegister rb
  | .push ra => namesRegister ra
  | .pop ra => namesRegister ra
  | .call ra => namesRegister ra
  | .ret => true
  | .add ra rb => namesRegister ra && namesRegister rb
  | .cmp ra rb => namesRegister ra && namesRegister rb
  | .jmp ra => namesRegister ra
  | .jeq ra => namesRegister ra
  | .jne ra => namesRegister ra

end Sys2Proof
end

