-- ==== Sys2Proof/Safety.lean ====
section
/-! DEFINITION. The terms the statements use: operand bytes, the invariant of the machine, reachable states, and what a safe
run is. -/

namespace Sys2Proof.Machine

/-! ## Operand bytes -/

/-- `f` is the register-index byte of register `a` (R44: the byte's whole value is the register's number). -/
abbrev Names (f : Byte) (a : Reg) : Prop := f.toNat = a.index

/-! ## The invariant -/

/-- E, G and L are mutually exclusive (R21, R22). -/
def Flags.exclusive (f : Flags) : Bool := !(f.e && f.g) && !(f.e && f.l) && !(f.g && f.l)

/-- What a terminal state records is true of the machine: HALTED stands at an HLT, and a fault's info names the
instruction at `pc` (R78, R82-R85, R88). -/
def RunInfoTrue (s : State) : Prop :=
  match s.run with
  | .running => True
  | .halted => s.memRead s.pc = some 0x01
  | .faulted (.decodeError b p) => p = s.pc ∧ s.memRead s.pc = some b ∧ opcodeOf b = none
  | .faulted (.addressError a p) => a = 256 ∧ p = s.pc
  | .faulted (.registerIndexError f p) => p = s.pc ∧ 8 ≤ f.toNat

/-- The invariant every step keeps. -/
structure Inv (s : State) : Prop where
  /-- pc is in 0-256 (R18) -/
  pc_le : s.pc ≤ 256
  /-- memory is canonical and lists only addresses 0-255 (R28) -/
  mem_wf : s.mem.wf = true
  /-- at most one flag is set (R22) -/
  fl_exclusive : s.fl.exclusive = true
  /-- RUN's info is true of the machine -/
  run_info : RunInfoTrue s

/-! ## Reachable states and safe runs -/

/-- The states a run from an image passes through (R61). -/
inductive Reachable (img : List Byte) : State → Prop where
  | start {s : State} : boot img = .ok s → Reachable img s
  | next {s t : State} : Reachable img s → step s = .next t → Reachable img t

/-- A state is safe unless the core has faulted. -/
def State.safe (s : State) : Prop := ∀ c, s.run ≠ .faulted c

end Sys2Proof.Machine
end

