-- ==== Sys2Proof/Certificates/Slice0/Obligations.lean ====
section
/-! DEFINITION. The statements for the provers. Each docstring names the rule of spec/ it formalises; where a clause
rests on one of the spec's own decisions (D<n>) or on a choice of the model, it says so and names the log entry. -/

open Sys2Proof Sys2Proof.Machine

/-! ## Encoding and decoding -/

/-- R45: the opcode map is exactly these 13 byte values, with these mnemonics, formats and lengths. -/
def Obligations.OpcodeMapIsTheTable : Prop :=
  (∀ (b : Byte) (op : Opcode), opcodeOf b = some op ↔
    (op, b) ∈ ([(.hlt, 0b00000001), (.ldi, 0b10000010), (.prn, 0b01000111), (.mul, 0b10100010),
      (.push, 0b01000101), (.pop, 0b01000110), (.call, 0b01010000), (.ret, 0b00010001), (.add, 0b10100000),
      (.cmp, 0b10100111), (.jmp, 0b01010100), (.jeq, 0b01010101), (.jne, 0b01010110)] : List (Opcode × Byte))) ∧
  (∀ op : Opcode, (op.mnemonic, op.format, op.length) =
    match op with
    | .hlt => (['H', 'L', 'T'], .n, 1)
    | .ldi => (['L', 'D', 'I'], .ri, 3)
    | .prn => (['P', 'R', 'N'], .r, 2)
    | .mul => (['M', 'U', 'L'], .rr, 3)
    | .push => (['P', 'U', 'S', 'H'], .r, 2)
    | .pop => (['P', 'O', 'P'], .r, 2)
    | .call => (['C', 'A', 'L', 'L'], .r, 2)
    | .ret => (['R', 'E', 'T'], .n, 1)
    | .add => (['A', 'D', 'D'], .rr, 3)
    | .cmp => (['C', 'M', 'P'], .rr, 3)
    | .jmp => (['J', 'M', 'P'], .r, 2)
    | .jeq => (['J', 'E', 'Q'], .r, 2)
    | .jne => (['J', 'N', 'E'], .r, 2))

/-- One word of each family, written out from R43 and R45, decodes to the instruction it stands for. -/
def Obligations.WrittenOutWordsDecode : Prop :=
  decode [0b10100000, 0, 1] = .ok (.add 0 1, []) ∧
  decode [0b10100111, 2, 3] = .ok (.cmp 2 3, []) ∧
  decode [0b01010101, 4] = .ok (.jeq 4, []) ∧
  decode [0b01000101, 7] = .ok (.push 7, []) ∧
  decode [0b00010001, 0] = .ok (.ret, [0]) ∧
  decode [0b10000010, 5, 255] = .ok (.ldi 5 255, [])

/-- Decoding an encoded instruction gives it back, with every operand byte at every value and whatever bytes follow
(R42, R43, R45). Every instruction, also one whose register-index byte names no register. -/
def Obligations.DecodeOfEncode : Prop :=
  ∀ (i : Instr) (rest : List Byte), decode (encode i ++ rest) = .ok (i, rest)

/-- The bytes a decoding used are the instruction's encoding, so no two byte sequences of one length mean the same
instruction (R42, R43, R45). -/
def Obligations.EncodeOfDecode : Prop :=
  ∀ (bs : List Byte) (i : Instr) (rest : List Byte), decode bs = .ok (i, rest) → bs = encode i ++ rest

/-- The other 243 byte values are illegal: each is rejected by name, whatever follows it. Exact match of the whole
byte is the spec's decision D23 (log 18). -/
def Obligations.IllegalOpcodesAreRejected : Prop :=
  (∀ (b : Byte) (rest : List Byte), (∀ op : Opcode, op.byte ≠ b) → decode (b :: rest) = .error (.illegalOpcode b)) ∧
  ((List.range 256).filter (fun n => (opcodeOf (byteOf n)).isNone)).length = 243

/-- The bit structure of the opcodes, the spec's own inference (R46 is marked derived): bits 7:6 count the operand
bytes, bit 5 marks ADD, MUL and CMP, bit 4 marks CALL, RET, JMP, JEQ and JNE. -/
def Obligations.OpcodeBitsShowTheStructure : Prop :=
  ∀ op : Opcode, op.byte.toNat / 64 = op.format.operandCount ∧
    (op.byte.getLsbD 5 = true ↔ op ∈ [Opcode.add, .mul, .cmp]) ∧
    (op.byte.getLsbD 4 = true ↔ op ∈ [Opcode.call, .ret, .jmp, .jeq, .jne])

/-! ## The dispatch cycle -/

/-- A step runs the decoded instruction (R53, R58, and R62, which the spec marks derived): when the bytes memory holds
from pc upward decode to `i`, the step is `exec i`, with nothing added around it (the handler alone moves pc). That a
short instruction at 254 or 255 runs, nothing being fetched beyond its own bytes, is the spec's decision D3 (log 5);
that one step is one whole instruction is D1. -/
def Obligations.StepRunsDecodedInstruction : Prop :=
  ∀ (s : State) (i : Instr) (rest : List Byte), s.run = .running → decode (s.bytesFrom s.pc) = .ok (i, rest) →
    step s = exec i s

/-- R55: a byte that is not one of the 13 opcodes raises DecodeError(b0, pc) and nothing else is read or written. Any
other byte raises no DecodeError, and the step continues with the format and length of b0, stated here up to address 253,
where every operand byte is an address of memory; `FetchBeyondMemoryRaisesAddressError` and `StepRunsDecodedInstruction` say
what happens at 254 and 255. -/
def Obligations.IllegalOpcodeRaisesDecodeError : Prop :=
  ∀ (s : State), s.run = .running → s.pc ≤ 255 →
    ((∀ op : Opcode, op.byte ≠ s.mem.read s.pc) →
      step s = .next { s with run := .faulted (.decodeError (s.mem.read s.pc) s.pc) }) ∧
    (∀ op : Opcode, op.byte = s.mem.read s.pc →
      (∀ (t : State) (b : Byte) (p : Nat), step s = .next t → t.run ≠ .faulted (.decodeError b p)) ∧
      (s.pc ≤ 253 → step s = exec (op.toInstr (s.mem.read (s.pc + 1)) (s.mem.read (s.pc + 2))) s))

/-- Fetching beyond 255 (R54, R56, R84): the opcode fetch at 256 or above names pc; an instruction whose last byte lies
beyond 255 names 256, whatever its operand bytes are. Which bytes are fetched is the spec's decision D3 (log 5), that
pc does not wrap is D2 (log 4), and that this fault comes before the register check is D10 (log 11). -/
def Obligations.FetchBeyondMemoryRaisesAddressError : Prop :=
  ∀ (s : State), s.run = .running →
    (255 < s.pc → step s = .next { s with run := .faulted (.addressError s.pc s.pc) }) ∧
    (∀ op : Opcode, s.pc ≤ 255 → op.byte = s.mem.read s.pc → 256 < s.pc + op.length →
      step s = .next { s with run := .faulted (.addressError 256 s.pc) })

/-- A register-index byte of 8 or more raises RegisterIndexError(f, pc) and changes nothing else, for every register
operand of every format: `ra` whatever the second byte is, then `rb` (R57, R85). The check itself is the spec's decision
D4 (log 6), its order D10 (log 11). -/
def Obligations.BadRegisterByteRaisesRegisterIndexError : Prop :=
  ∀ (s : State) (f : Byte), 8 ≤ f.toNat →
    (∀ x : Byte, ∀ i ∈ [Instr.ldi f x, .add f x, .mul f x, .cmp f x, .prn f, .push f, .pop f, .call f, .jmp f, .jeq f,
        .jne f], exec i s = .next { s with run := .faulted (.registerIndexError f s.pc) }) ∧
    (∀ ra : Byte, ra.toNat ≤ 7 → ∀ i ∈ [Instr.add ra f, .mul ra f, .cmp ra f],
      exec i s = .next { s with run := .faulted (.registerIndexError f s.pc) })

/-- A step that faults changes RUN and nothing else, whatever the instruction and the fault (R59, R88). That every check
comes before every write is the spec's decision D10 (log 11). -/
def Obligations.FaultsArePrecise : Prop :=
  ∀ (s t : State) (c : FaultCause), step s = .next t → t.run = .faulted c → t = { s with run := .faulted c }

/-- A step is enabled exactly when RUN = RUNNING (R53), and then it always completes or faults (R108); in a terminal
state there is no next state (R61, R89). That the step is one whole instruction is D1; the names of the model's two
stops are the model's choice (log 2). -/
def Obligations.StepIsEnabledExactlyWhenRunning : Prop :=
  ∀ s : State, ((∃ t, step s = .next t) ↔ s.run = .running) ∧
    (s.run = .halted → step s = .fault .noStepHalted) ∧
    (∀ c, s.run = .faulted c → step s = .fault (.noStepFaulted c))

/-- HALTED is entered by HLT and by nothing else (R23, R78, R94). That an HLT at 254 or 255 halts, nothing being
fetched beyond it, is the spec's decision D3 (log 5). -/
def Obligations.OnlyHltHalts : Prop :=
  ∀ s t : State, step s = .next t → (t.run = .halted ↔ s.memRead s.pc = some 0b00000001)

/-- A step leaves the core safe, that is, does not fault, exactly when the bytes at pc decode to an instruction, each
of its register bytes names a register, and, for CALL, the return address is an address (R60 lists these faults; R105
what a program must avoid). The conditions rest on the spec's decisions: a fetch at 256 faults D2 (log 4), nothing is
fetched beyond the instruction D3 (log 5), register bytes D4 (log 6), CALL's return address D6 (log 8). That there is
no condition on SP, so that PUSH and CALL at SP 0 and POP and RET at SP 255 do not fault, is D5 (log 7); that the
empty stack and a stack that meets the program are no fault either is D19 and D24 (log 17). -/
def Obligations.StepIsSafeExactlyWhen : Prop :=
  ∀ s t : State, s.run = .running → step s = .next t →
    (t.safe ↔ ∃ (i : Instr) (rest : List Byte), decode (s.bytesFrom s.pc) = .ok (i, rest) ∧ i.wellFormed = true ∧
      ∀ ra : Byte, i = .call ra → s.pc ≤ 253)

/-! ## ALU, load-immediate -/

/-- R13: ADD and MUL write their result modulo 256 into the first operand's register and record no flag; the register
read as `x[rb]` may be the same one. They complete on all register values (where pc goes: `NextPcByInstruction`). -/
def Obligations.AluResultsWrapModulo256 : Prop :=
  ∀ (s : State) (ra rb : Byte) (a b : Reg), Names ra a → Names rb b →
    (∃ t, exec (.add ra rb) s = .next t ∧ (t.reg a).toNat = ((s.reg a).toNat + (s.reg b).toNat) % 256 ∧
      t.fl = s.fl ∧ t.run = s.run) ∧
    (∃ t, exec (.mul ra rb) s = .next t ∧ (t.reg a).toNat = ((s.reg a).toNat * (s.reg b).toNat) % 256 ∧
      t.fl = s.fl ∧ t.run = s.run)

/-- LDI completes for every register and every immediate: `x[ra]` is the immediate byte, pc + 3 (R79). -/
def Obligations.LdiResult : Prop :=
  ∀ (s : State) (ra imm : Byte) (a : Reg), Names ra a →
    ∃ t, exec (.ldi ra imm) s = .next t ∧ t.reg a = imm ∧ t.pc = s.pc + 3 ∧ t.run = s.run

/-- What ADD, MUL and LDI leave unchanged: every register but the one `ra` names, all flags, OUT, all of memory; RUN
too, unless a register byte names no register (R12, R21, R24, R31). That such a byte faults is the spec's decision D4
(log 6), that the fault comes before every write D10 (log 11). -/
def Obligations.AluAndLdiFrame : Prop :=
  ∀ (s t : State) (ra x : Byte), ∀ i ∈ [Instr.add ra x, .mul ra x, .ldi ra x], exec i s = .next t →
    (∀ r : Reg, ¬ Names ra r → t.reg r = s.reg r) ∧ t.fl = s.fl ∧ t.out = s.out ∧
    (∀ a : Nat, t.mem.read a = s.mem.read a) ∧
    (t.run = s.run ∨ ∃ f : Byte, 8 ≤ f.toNat ∧ t = { s with run := .faulted (.registerIndexError f s.pc) })

/-! ## Compare and branch -/

/-- CMP completes on all register values and sets E, G and L to the unsigned comparison, pc + 3 (R66). -/
def Obligations.CmpResult : Prop :=
  ∀ (s : State) (ra rb : Byte) (a b : Reg), Names ra a → Names rb b →
    ∃ t, exec (.cmp ra rb) s = .next t ∧
      (t.fl.e = true ↔ (s.reg a).toNat = (s.reg b).toNat) ∧
      (t.fl.g = true ↔ (s.reg a).toNat > (s.reg b).toNat) ∧
      (t.fl.l = true ↔ (s.reg a).toNat < (s.reg b).toNat) ∧
      t.pc = s.pc + 3 ∧ t.run = s.run

/-- After any step that completes a CMP, exactly one of E, G and L is 1, whatever the flags were (R22 takes this from
R21 and R66 and is marked derived). -/
def Obligations.CmpLeavesExactlyOneFlag : Prop :=
  ∀ s t : State, step s = .next t → t.run = .running → s.memRead s.pc = some 0b10100111 →
    t.fl ∈ [Flags.mk true false false, ⟨false, true, false⟩, ⟨false, false, true⟩]

/-- JMP, JEQ and JNE complete in every state: JMP goes to `x[ra]`; JEQ does so exactly when E = 1 and JNE exactly when
E = 0, and otherwise pc + 2 (R67, R68, R69). -/
def Obligations.JumpResults : Prop :=
  ∀ (s : State) (ra : Byte) (a : Reg), Names ra a →
    (∃ t, exec (.jmp ra) s = .next t ∧ t.pc = (s.reg a).toNat ∧ t.run = s.run) ∧
    (∃ t, exec (.jeq ra) s = .next t ∧ t.pc = (if s.fl.e = true then (s.reg a).toNat else s.pc + 2) ∧ t.run = s.run) ∧
    (∃ t, exec (.jne ra) s = .next t ∧ t.pc = (if s.fl.e = false then (s.reg a).toNat else s.pc + 2) ∧ t.run = s.run)

/-- A taken JEQ or JNE is identical in effect to JMP with the same `ra`, on every register byte (R70, marked
derived). -/
def Obligations.TakenConditionalIsJmp : Prop :=
  ∀ (s : State) (ra : Byte), (s.fl.e = true → exec (.jeq ra) s = exec (.jmp ra) s) ∧
    (s.fl.e = false → exec (.jne ra) s = exec (.jmp ra) s)

/-- What CMP, JMP, JEQ, JNE, PRN and HLT leave unchanged: every register and all of memory; the flags, but for CMP;
OUT, but for PRN; RUN, but for HLT and for a register byte that names no register (R12, R21, R24, R31, R78). That such
a byte faults is the spec's decision D4 (log 6), that the fault comes before every write D10 (log 11). -/
def Obligations.CompareBranchOutputHaltFrame : Prop :=
  ∀ (s t : State) (ra x : Byte), ∀ i ∈ [Instr.cmp ra x, .jmp ra, .jeq ra, .jne ra, .prn ra, .hlt], exec i s = .next t →
    (∀ r : Reg, t.reg r = s.reg r) ∧ (∀ a : Nat, t.mem.read a = s.mem.read a) ∧
    (i ≠ .cmp ra x → t.fl = s.fl) ∧ (i ≠ .prn ra → t.out = s.out) ∧
    (i ≠ .hlt → t.run = s.run ∨ ∃ f : Byte, 8 ≤ f.toNat ∧ t = { s with run := .faulted (.registerIndexError f s.pc) })

/-! ## Stack and call -/

/-- PUSH completes at every SP (wrap at 0 is the spec's decision D5, log 7; no guard on where SP points: D24, log 17):
SP goes down by one modulo 256, and in a canonical memory the byte at the new SP is `x[ra]`, read after the decrement,
so that PUSH R7 stores the decremented SP (D14, D15, log 14); pc + 2 (R71, R73). -/
def Obligations.PushResult : Prop :=
  ∀ (s : State) (ra : Byte) (a : Reg), Names ra a →
    ∃ t, exec (.push ra) s = .next t ∧ (t.reg .r7).toNat = ((s.reg .r7).toNat + 255) % 256 ∧
      (s.mem.wf = true → t.mem.read (t.reg .r7).toNat = if a = .r7 then t.reg .r7 else s.reg a) ∧
      t.pc = s.pc + 2 ∧ t.run = s.run

/-- POP completes at every SP (wrap at 255: D5, log 7; the empty stack: D19, log 17): the byte at SP goes to `x[ra]` and
then SP goes up by one modulo 256, so that POP R7 leaves SP one above the popped byte (D15, log 14); pc + 2
(R72, R74). -/
def Obligations.PopResult : Prop :=
  ∀ (s : State) (ra : Byte) (a : Reg), Names ra a →
    ∃ t, exec (.pop ra) s = .next t ∧
      (a ≠ .r7 → t.reg a = s.mem.read (s.reg .r7).toNat ∧ (t.reg .r7).toNat = ((s.reg .r7).toNat + 1) % 256) ∧
      (a = .r7 → (t.reg .r7).toNat = ((s.mem.read (s.reg .r7).toNat).toNat + 1) % 256) ∧
      t.pc = s.pc + 2 ∧ t.run = s.run

/-- CALL below address 254 completes: SP goes down by one modulo 256 (D5, log 7; no guard on where SP points: D24, log
17), in a canonical memory the byte at the new SP is pc + 2, and pc is `x[ra]` read after the push, so that CALL R7
goes to the decremented SP (D15, log 14) (R75). -/
def Obligations.CallResult : Prop :=
  ∀ (s : State) (ra : Byte) (a : Reg), Names ra a → s.pc ≤ 253 →
    ∃ t, exec (.call ra) s = .next t ∧ (t.reg .r7).toNat = ((s.reg .r7).toNat + 255) % 256 ∧
      (s.mem.wf = true → (t.mem.read (t.reg .r7).toNat).toNat = s.pc + 2) ∧
      t.pc = (if a = .r7 then (t.reg .r7).toNat else (s.reg a).toNat) ∧ t.run = s.run

/-- CALL whose return address is above 255 raises AddressError of that address before any write; in a run this is CALL
at 254 and the address 256. The spec's decision D6 (log 8). -/
def Obligations.CallWithoutReturnAddressFaults : Prop :=
  ∀ (s : State) (ra : Byte) (a : Reg), Names ra a → 254 ≤ s.pc →
    exec (.call ra) s = .next { s with run := .faulted (.addressError (s.pc + 2) s.pc) }

/-- RET completes at every SP (wrap at 255: D5, log 7; no matching CALL: D19, log 17): pc is the byte at SP, and SP goes
up by one modulo 256 (R76). -/
def Obligations.RetResult : Prop :=
  ∀ s : State, ∃ t, exec .ret s = .next t ∧ t.pc = (s.mem.read (s.reg .r7).toNat).toNat ∧
    (t.reg .r7).toNat = ((s.reg .r7).toNat + 1) % 256 ∧ t.run = s.run

/-- What PUSH and CALL leave unchanged: every register but SP, the flags, OUT, and every byte of memory but the one at
the address the push stores to, which is SP after the decrement; where the instruction faults, everything but RUN
(R12, R21, R24, R31, R71). That SP goes from 0 to 255 is the spec's decision D5 (log 7); that a fault comes before
every write is D10 (log 11). -/
def Obligations.PushAndCallFrame : Prop :=
  ∀ (s t : State) (ra : Byte), ∀ i ∈ [Instr.push ra, .call ra], exec i s = .next t →
    (∀ r : Reg, r ≠ .r7 → t.reg r = s.reg r) ∧ t.fl = s.fl ∧ t.out = s.out ∧
    (∀ a : Nat, a = s.pushAddr → ∀ b : Nat, b ≠ a → t.mem.read b = s.mem.read b) ∧
    (t.run = s.run ∨ ∃ c, t = { s with run := .faulted c })

/-- What POP and RET leave unchanged: every register but SP and, for POP, the one `ra` names; the flags, OUT, and all
of memory; RUN too, unless POP's register byte names no register (R12, R21, R24, R31). That such a byte faults, and
that nothing else does at any SP, are the spec's decisions D4 (log 6), D5 (log 7) and D19 (log 17); that the fault
comes before every write is D10 (log 11). -/
def Obligations.PopAndRetFrame : Prop :=
  ∀ (s t : State),
    (∀ ra : Byte, exec (.pop ra) s = .next t →
      (∀ r : Reg, r ≠ .r7 → ¬ Names ra r → t.reg r = s.reg r) ∧ t.fl = s.fl ∧ t.out = s.out ∧
      (∀ a : Nat, t.mem.read a = s.mem.read a) ∧
      (t.run = s.run ∨ ∃ f : Byte, 8 ≤ f.toNat ∧ t = { s with run := .faulted (.registerIndexError f s.pc) })) ∧
    (exec .ret s = .next t →
      (∀ r : Reg, r ≠ .r7 → t.reg r = s.reg r) ∧ t.fl = s.fl ∧ t.out = s.out ∧
      (∀ a : Nat, t.mem.read a = s.mem.read a) ∧ t.run = s.run)

/-- `PUSH r1; POP r2` leaves r2 equal to r1's value before the push, and SP restored (R74's example, the source's §8
property), for all registers but R7 and at every SP, also where SP wraps (D5, log 7). -/
def Obligations.PushThenPopRoundTrips : Prop :=
  ∀ (s t u : State) (ra rb : Byte) (a b : Reg), s.mem.wf = true → Names ra a → Names rb b → a ≠ .r7 → b ≠ .r7 →
    exec (.push ra) s = .next t → exec (.pop rb) t = .next u →
    u.reg b = s.reg a ∧ u.reg .r7 = s.reg .r7

/-- A RET reached with SP as the CALL left it, and the byte there as the CALL left it, returns to the address after
the CALL's two bytes with SP as before the CALL, and leaves `x[0]` to `x[6]` as they are (R75, R76, R77), also where
SP wraps (D5, log 7). -/
def Obligations.CallThenRetReturns : Prop :=
  ∀ (s t u v : State) (ra : Byte) (a : Reg), s.mem.wf = true → Names ra a → s.pc ≤ 253 →
    exec (.call ra) s = .next t → u.reg .r7 = t.reg .r7 →
    u.mem.read (u.reg .r7).toNat = t.mem.read (t.reg .r7).toNat → exec .ret u = .next v →
    v.pc = s.pc + 2 ∧ v.reg .r7 = s.reg .r7 ∧ ∀ r : Reg, r ≠ .r7 → v.reg r = u.reg r

/-! ## Output and halting -/

/-- PRN completes: OUT grows by exactly the value of the register its operand byte names, pc + 2 (R80, R81; that the
entry is a byte is the spec's decision D11, log 12). -/
def Obligations.PrnResult : Prop :=
  ∀ (s : State) (ra : Byte) (a : Reg), Names ra a →
    ∃ t, exec (.prn ra) s = .next t ∧ t.out = s.out ++ [s.reg a] ∧ t.pc = s.pc + 2 ∧ t.run = s.run

/-- HLT completes in every state: RUN is HALTED and nothing else changes. That pc keeps the address of the HLT is the
spec's decision D16 (log 15) (R78). -/
def Obligations.HltResult : Prop :=
  ∀ s : State, exec .hlt s = .next { s with run := .halted }

/-! ## Whole-machine rules -/

/-- The register writes, by instruction: no instruction changes a register that R12's table does not list for it, in
any form, faulting ones too (that a fault comes before every write is the spec's decision D10, log 11). POP's order of
writes, D14, is in `PopResult`. -/
def Obligations.RegisterWritesByInstruction : Prop :=
  ∀ (i : Instr) (s t : State) (r : Reg), exec i s = .next t → t.reg r ≠ s.reg r →
    match i with
    | .ldi ra _ => Names ra r
    | .add ra _ => Names ra r
    | .mul ra _ => Names ra r
    | .pop ra => Names ra r ∨ r = .r7
    | .push _ => r = .r7
    | .call _ => r = .r7
    | .ret => r = .r7
    | .hlt => False
    | .prn _ => False
    | .cmp _ _ => False
    | .jmp _ => False
    | .jeq _ => False
    | .jne _ => False

/-- The next pc, by instruction, where it does not fault (R19): HLT leaves it (D16, log 15); the others advance by their
length, no wrap (D2, log 4; the lengths of ADD and MUL are R43's inference, log 24), or go to the register's value, for
CALL as it stands after the push (D14, log 14), or for RET to the byte on top of the stack. A faulting instruction leaves
pc as it is (`FaultsArePrecise`). -/
def Obligations.NextPcByInstruction : Prop :=
  ∀ (i : Instr) (s t : State), s.run = .running → exec i s = .next t → t.safe →
    match i with
    | .hlt => t.pc = s.pc
    | .ldi _ _ => t.pc = s.pc + 3
    | .add _ _ => t.pc = s.pc + 3
    | .mul _ _ => t.pc = s.pc + 3
    | .cmp _ _ => t.pc = s.pc + 3
    | .prn _ => t.pc = s.pc + 2
    | .push _ => t.pc = s.pc + 2
    | .pop _ => t.pc = s.pc + 2
    | .jmp ra => ∃ a, Names ra a ∧ t.pc = (s.reg a).toNat
    | .jeq ra => ∃ a, Names ra a ∧ t.pc = if s.fl.e = true then (s.reg a).toNat else s.pc + 2
    | .jne ra => ∃ a, Names ra a ∧ t.pc = if s.fl.e = true then s.pc + 2 else (s.reg a).toNat
    | .call ra => ∃ a, Names ra a ∧ t.pc = (t.reg a).toNat
    | .ret => t.pc = (s.mem.read (s.reg .r7).toNat).toNat

/-- No step but one that completes a CMP changes the flags, whatever the instruction and whether or not it faults
(R21). -/
def Obligations.OnlyCmpWritesFlags : Prop :=
  ∀ s t : State, step s = .next t → s.memRead s.pc ≠ some 0b10100111 → t.fl = s.fl

/-- OUT is append-only and nothing reads it: a step appends at most one byte, only at a PRN, and with any other OUT the
step does the same in every other respect (R24; entries are bytes by D11, log 12). -/
def Obligations.OutIsAppendOnlyAndUnread : Prop :=
  ∀ (s t : State), step s = .next t → ∃ p : List Byte, t.out = s.out ++ p ∧ p.length ≤ 1 ∧
    (s.memRead s.pc ≠ some 0b01000111 → p = []) ∧
    ∀ o : List Byte, step { s with out := o } = .next { t with out := o ++ p }

/-- G and L are written and never read: changing them changes nothing in a step's result but G and L (R21). -/
def Obligations.FlagsGAndLAreNeverRead : Prop :=
  ∀ (s t : State) (g l : Bool), step s = .next t →
    ∃ f : Flags, f.e = t.fl.e ∧ step { s with fl := ⟨s.fl.e, g, l⟩ } = .next { t with fl := f }

/-- Only PUSH and CALL write memory, and a step writes at most the byte at the decremented SP, an address below 256
(R31, R36, R71). That this address is 255 where SP is 0 is the spec's decision D5 (log 7); that a faulting step writes
nothing is D10 (log 11). -/
def Obligations.OnlyPushAndCallWriteMemory : Prop :=
  ∀ s t : State, step s = .next t →
    (s.memRead s.pc ≠ some 0b01000101 → s.memRead s.pc ≠ some 0b01010000 → t.mem = s.mem) ∧
    (∀ a : Nat, a ≠ ((s.reg .r7).toNat + 255) % 256 → t.mem.read a = s.mem.read a)

/-- A byte a PUSH has written is the byte the very next fetch reads (R39, R104, marked derived): when the push stores
to the next pc, the next step halts if the byte is HLT's opcode, and raises DecodeError of that byte if it is no
opcode. Canonical memory is log 23; that a push may write into the program is the spec's decision D24 (log 17); that
the push goes through where SP wraps is the spec's decision D5 (log 7), and that a pushed HLT at 254 or 255 is fetched
alone is D3 (log 5). -/
def Obligations.FetchSeesThePushedByte : Prop :=
  ∀ (s t : State) (ra : Byte) (a : Reg), s.mem.wf = true → s.run = .running → Names ra a → a ≠ .r7 →
    exec (.push ra) s = .next t → s.pc + 2 = s.pushAddr →
    (s.reg a = 0b00000001 → step t = .next { t with run := .halted }) ∧
    ((∀ op : Opcode, op.byte ≠ s.reg a) → step t = .next { t with run := .faulted (.decodeError (s.reg a) t.pc) })

/-! ## State, reset and load -/

/-- R29: every address from 0 to 255 can be read and written in every state; the write changes that cell and nothing
else, and in a canonical memory the cell then reads as written. -/
def Obligations.EveryAddressReadsAndWrites : Prop :=
  ∀ (s : State) (a : Nat) (v : Byte), a ≤ 255 →
    (∃ w, s.memRead a = some w) ∧
    ∃ t, s.memWrite a v = some t ∧ (s.mem.wf = true → t.memRead a = some v) ∧
      (∀ b : Nat, b ≠ a → t.memRead b = s.memRead b) ∧ t = { s with mem := t.mem }

/-- No access above 255 reaches memory (R30): both primitives refuse it. -/
def Obligations.NoAccessAbove255 : Prop :=
  ∀ (s : State) (a : Nat) (v : Byte), 255 < a → s.memRead a = none ∧ s.memWrite a v = none

/-- FL as a byte: E at bit 0, G at bit 1, L at bit 2, bits 7:3 zero. The layout is the spec's decision D8 (log 10). -/
def Obligations.FlagByteLayout : Prop :=
  ∀ f : Flags, f.byte.getLsbD 0 = f.e ∧ f.byte.getLsbD 1 = f.g ∧ f.byte.getLsbD 2 = f.l ∧ f.byte.toNat < 8

/-- R10, R15: the registers after reset: `x[0]` to `x[6]` are 0 and `x[7]`, which is SP, is 0xF4. Each register's
index is spelled out, so that SP is the register of index 7; there is one register to each index from 0 to 7 and no
other. -/
def Obligations.ResetRegisters : Prop :=
  (∀ r : Reg, State.reset.reg r = if r = .r7 then 0xF4 else 0) ∧ (∀ s : State, s.sp = s.reg .r7) ∧
  (Reg.r0.index = 0 ∧ Reg.r1.index = 1 ∧ Reg.r2.index = 2 ∧ Reg.r3.index = 3 ∧
    Reg.r4.index = 4 ∧ Reg.r5.index = 5 ∧ Reg.r6.index = 6 ∧ Reg.r7.index = 7) ∧
  (∀ n : Nat, n < 8 ↔ ∃ r : Reg, r.index = n) ∧ (∀ q r : Reg, q.index = r.index → q = r)

/-- The rest of the state after reset: pc 0, RUNNING, OUT empty, every cell 0, and the flags clear, which is the spec's
decision D7 (log 9) (R18, R23, R27, R28). -/
def Obligations.ResetRest : Prop :=
  State.reset.pc = 0 ∧ State.reset.run = .running ∧ State.reset.out = [] ∧
  State.reset.fl = ⟨false, false, false⟩ ∧ ∀ a : Nat, State.reset.mem.read a = 0

/-- The load: an image of at most 256 bytes stands in cells 0 to n-1, the other cells are 0, and all other state is as
reset left it; a longer image means no run (R97, R99, R100). The bound and its treatment are the spec's decision D12
(log 13). -/
def Obligations.LoadPlacesTheImage : Prop :=
  ∀ img : List Byte,
    (img.length ≤ 256 → ∃ s, boot img = .ok s ∧ s = { State.reset with mem := s.mem } ∧
      ∀ a : Nat, s.mem.read a = img.getD a 0) ∧
    (256 < img.length → boot img = .error .configurationError)

/-- The invariant holds after reset. `Inv` collects R18 (pc at most 256), R22 (flags exclusive, marked derived), R28
(memory in the model's canonical form, log 23, DEDUCED) and what RUN records (R78, R82-R85). At reset the flags clause
rests on the spec's decision D7, which gives the flags their reset value (log 9, DESIGN CHOICE); pc, memory's contents
and RUN are as the source gives them (R18, R28, R23). -/
def Obligations.ResetMeetsTheInvariant : Prop := Inv State.reset

/-- The invariant holds after every load (R97, R99), of every image a load takes: at most 256 bytes, the spec's
decision D12 (log 13). That the loaded memory is canonical is the model's form of it (log 23, DEDUCED from R28); the
flags clause rests on the flags' reset value, the spec's decision D7 (log 9, DESIGN CHOICE), which a load leaves as it
is; pc and RUN are still as at reset (R97). -/
def Obligations.LoadedStatesMeetTheInvariant : Prop :=
  ∀ (img : List Byte) (s : State), boot img = .ok s → Inv s

/-- Every step keeps the invariant, from every state that meets it: pc stays in 0-256, memory stays canonical, the
flags stay mutually exclusive, and a terminal state's record is true: HALTED stands at an HLT; DecodeError names the
illegal byte at pc; AddressError's address is always 256; RegisterIndexError's index is 8 or more; each names pc (R18,
R22, R28, R82-R85). The clauses rest on the spec's decisions: pc D2 (log 4), HALTED D16 (log 15), AddressError's
address D2 and D6 (logs 4 and 8), RegisterIndexError D4 (log 6), that a fault leaves pc and memory as they are D10
(log 11), the fault kinds D9 (log 1); the canonical form of memory is the model's (log 23, DEDUCED from R28). -/
def Obligations.StepKeepsTheInvariant : Prop :=
  ∀ s t : State, Inv s → step s = .next t → Inv t

/-- Every state a run passes through (R61), from any image of at most 256 bytes (D12, log 13), meets the invariant
(R18, R22, R28, R82-R85). The clauses rest on the spec's decisions: pc D2 (log 4), HALTED's pc D16 (log 15), the flags
D7 at the start of the run (log 9), AddressError's address D2 and D6 (logs 4 and 8), RegisterIndexError D4 (log 6),
that a fault leaves pc and memory as they are D10 (log 11), the fault kinds D9 (log 1); the canonical form of memory
is the model's (log 23, DEDUCED from R28). -/
def Obligations.ReachableStatesMeetTheInvariant : Prop :=
  ∀ (img : List Byte) (s : State), Reachable img s → Inv s

/-! ## Texts -/

/-- A well-formed instruction's canonical spelling assembles to its encoding, one instruction per mnemonic, operands in
encoding order. The syntax is the spec's decision D22 (log 22). -/
def Obligations.CanonicalTextAssembles : Prop :=
  ∀ i : Instr, i.wellFormed = true → assemble (instrText i) = some (encode i)

/-- The text of an image, one 8-character binary literal a line, reads back as the image, and boots as it does (R52;
the readings the rule leaves open are log 21). -/
def Obligations.ImageTextReadsBack : Prop :=
  ∀ img : List Byte, parseImage (imageText img) = some img ∧ bootText (imageText img) = boot img
end

