-- ==== Sys2Proof/Laws/Memory.lean ====
section
/-! SUPPORT. The laws of memory: read after write, other addresses untouched, and that every memory operation keeps the
canonical form. -/

namespace Sys2Proof.Machine

@[simp] theorem Memory.read_nil (a : Nat) : Memory.read [] a = 0 := rfl

theorem Memory.read_cons (k : Nat) (v : Byte) (m : Memory) (a : Nat) :
    Memory.read ((k, v) :: m) a = if a = k then v else Memory.read m a := rfl

theorem Memory.wfFrom_cons {lo k : Nat} {v : Byte} {m : Memory} :
    Memory.wfFrom lo ((k, v) :: m) = true ↔ lo ≤ k ∧ k < 256 ∧ v ≠ 0 ∧ Memory.wfFrom (k + 1) m = true := by
  simp only [Memory.wfFrom, Bool.and_eq_true, decide_eq_true_eq, and_assoc]
  rfl

theorem Memory.wfFrom_mono {lo lo' : Nat} (h : lo' ≤ lo) {m : Memory} (hm : m.wfFrom lo = true) :
    m.wfFrom lo' = true := by
  cases m with
  | nil => rfl
  | cons c m =>
    rw [Memory.wfFrom_cons] at hm ⊢
    exact ⟨h.trans hm.1, hm.2⟩

/-- A canonical list reads as the reset contents below its first address. -/
theorem Memory.read_below {m : Memory} {lo a : Nat} (hm : m.wfFrom lo = true) (h : a < lo) : m.read a = 0 := by
  induction m generalizing lo with
  | nil => rfl
  | cons c m ih =>
    rw [Memory.wfFrom_cons] at hm
    have hlt : a < c.1 := h.trans_le hm.1
    rw [Memory.read_cons, if_neg hlt.ne]
    exact ih hm.2.2.2 (hlt.trans (Nat.lt_succ_self _))

theorem Memory.read_consCell_same {m : Memory} {a : Nat} (v : Byte) (h : m.read a = 0) :
    (Memory.consCell a v m).read a = v := by
  unfold Memory.consCell
  split
  · rename_i hv; rw [h, hv]; rfl
  · simp [Memory.read_cons]

theorem Memory.read_consCell_other {m : Memory} {a b : Nat} (v : Byte) (h : b ≠ a) :
    (Memory.consCell a v m).read b = m.read b := by
  unfold Memory.consCell
  split
  · rfl
  · simp [Memory.read_cons, h]

/-- Reading the address just written gives the value written (R37). -/
theorem Memory.read_write_same {m : Memory} (hm : m.wf = true) (a : Nat) (v : Byte) : (m.write a v).read a = v := by
  have key : ∀ (m : Memory) (lo : Nat), m.wfFrom lo = true → (m.write a v).read a = v := by
    intro m
    induction m with
    | nil => intro _ _; exact Memory.read_consCell_same v rfl
    | cons c m ih =>
      intro lo hm
      obtain ⟨k, b⟩ := c
      have hc := Memory.wfFrom_cons.mp hm
      simp only [Memory.write]
      split
      · rename_i hlt
        exact Memory.read_consCell_same v (Memory.read_below (Memory.wfFrom_cons.mpr ⟨le_rfl, hc.2⟩) hlt)
      · split
        · rename_i heq
          exact Memory.read_consCell_same v (Memory.read_below hc.2.2.2 (by omega))
        · rename_i _ hne
          rw [Memory.read_cons, if_neg hne]
          exact ih _ hc.2.2.2
  exact key m 0 hm

/-- A write leaves every other address alone; this holds of every list of cells (R37). -/
theorem Memory.read_write_other (m : Memory) {a b : Nat} (v : Byte) (h : b ≠ a) :
    (m.write a v).read b = m.read b := by
  induction m with
  | nil => exact Memory.read_consCell_other v h
  | cons c m ih =>
    obtain ⟨k, w⟩ := c
    simp only [Memory.write]
    split
    · exact Memory.read_consCell_other v h
    · split
      · rename_i heq
        rw [Memory.read_consCell_other v h, Memory.read_cons, if_neg (heq ▸ h)]
      · rw [Memory.read_cons, Memory.read_cons, ih]

theorem Memory.read_write {m : Memory} (hm : m.wf = true) (a b : Nat) (v : Byte) :
    (m.write a v).read b = if b = a then v else m.read b := by
  split
  · rename_i h; rw [h]; exact Memory.read_write_same hm a v
  · rename_i h; exact Memory.read_write_other m v h

theorem Memory.consCell_wfFrom {m : Memory} {lo a : Nat} (v : Byte) (hlo : lo ≤ a) (ha : a < 256)
    (hm : m.wfFrom (a + 1) = true) : (Memory.consCell a v m).wfFrom lo = true := by
  unfold Memory.consCell
  split
  · exact Memory.wfFrom_mono (by omega) hm
  · rename_i hv; exact Memory.wfFrom_cons.mpr ⟨hlo, ha, hv, hm⟩

/-- A write at an address of the machine keeps the canonical form. -/
theorem Memory.write_wf {m : Memory} (hm : m.wf = true) {a : Nat} (ha : a < 256) (v : Byte) :
    (m.write a v).wf = true := by
  have key : ∀ (m : Memory) (lo : Nat), lo ≤ a → m.wfFrom lo = true → (m.write a v).wfFrom lo = true := by
    intro m
    induction m with
    | nil => intro lo hlo _; exact Memory.consCell_wfFrom v hlo ha rfl
    | cons c m ih =>
      intro lo hlo hm
      obtain ⟨k, b⟩ := c
      have hc := Memory.wfFrom_cons.mp hm
      simp only [Memory.write]
      split
      · rename_i hlt
        exact Memory.consCell_wfFrom v hlo ha (Memory.wfFrom_cons.mpr ⟨hlt, hc.2⟩)
      · split
        · rename_i heq
          exact Memory.consCell_wfFrom v hlo ha (heq ▸ hc.2.2.2)
        · rename_i hnlt hne
          exact Memory.wfFrom_cons.mpr ⟨hc.1, hc.2.1, hc.2.2.1, ih _ (by omega) hc.2.2.2⟩
  exact key m 0 (Nat.zero_le a) hm

/-- Loading bytes below the top of memory keeps the canonical form. -/
theorem loadFrom_wf {m : Memory} (hm : m.wf = true) (a : Nat) (img : List Byte) (h : a + img.length ≤ 256) :
    (loadFrom a img m).wf = true := by
  induction img generalizing a m with
  | nil => exact hm
  | cons b bs ih =>
    simp only [List.length_cons] at h
    exact ih (Memory.write_wf hm (by omega) b) (a + 1) (by omega)

/-- Placing bytes keeps the canonical form. -/
theorem Memory.place_wf {m : Memory} (hm : m.wf = true) (a : Nat) (bs : List Byte) : (m.place a bs).wf = true := by
  induction bs generalizing a m with
  | nil => exact hm
  | cons b bs ih =>
    simp only [Memory.place]
    refine ih ?_ (a + 1)
    split
    · rename_i h; exact Memory.write_wf hm h b
    · exact hm

theorem reset_mem_wf : State.reset.mem.wf = true := rfl

/-- What the load leaves in a cell: the image's byte, or what was there. -/
theorem read_loadFrom {m : Memory} (hm : m.wf = true) (a : Nat) (img : List Byte) (h : a + img.length ≤ 256)
    (b : Nat) :
    (loadFrom a img m).read b = if a ≤ b ∧ b < a + img.length then img.getD (b - a) 0 else m.read b := by
  induction img generalizing a m with
  | nil =>
    have : ¬ (a ≤ b ∧ b < a + ([] : List Byte).length) := by simp only [List.length_nil]; omega
    rw [if_neg this]; rfl
  | cons x xs ih =>
    simp only [List.length_cons] at h
    simp only [loadFrom, List.length_cons]
    rw [ih (Memory.write_wf hm (by omega) x) (a + 1) (by omega)]
    by_cases hb : b = a
    · subst hb
      rw [if_neg (by omega), Memory.read_write_same hm, if_pos (by omega)]
      simp
    · rw [Memory.read_write_other _ _ hb]
      by_cases hin : a + 1 ≤ b ∧ b < a + 1 + xs.length
      · rw [if_pos hin, if_pos (by omega)]
        obtain ⟨j, rfl⟩ : ∃ j, b = a + 1 + j := ⟨b - (a + 1), by omega⟩
        have e1 : a + 1 + j - (a + 1) = j := by omega
        have e2 : a + 1 + j - a = j + 1 := by omega
        rw [e1, e2, List.getD_cons_succ]
      · rw [if_neg hin, if_neg (by omega)]

@[simp] theorem State.memRead_of_le (s : State) {a : Nat} (h : a ≤ 255) : s.memRead a = some (s.mem.read a) := by
  simp [State.memRead, Nat.not_lt.mpr h]

@[simp] theorem State.memRead_of_gt (s : State) {a : Nat} (h : 255 < a) : s.memRead a = none := by
  simp [State.memRead, h]

theorem State.memRead_eq_some {s : State} {a : Nat} {b : Byte} (h : s.memRead a = some b) :
    a ≤ 255 ∧ s.mem.read a = b := by
  unfold State.memRead at h
  split at h
  · exact absurd h (by simp)
  · exact ⟨by omega, Option.some.inj h⟩

/-- The stack's store is `MemWrite` at SP: the check of R30 cannot fire there (R71). -/
theorem State.storeTop_eq_memWrite (s : State) (v : Byte) : s.memWrite s.sp.toNat v = some (s.storeTop v) := by
  have h := s.sp.isLt
  simp only [State.memWrite, State.storeTop]
  rw [if_neg (by omega)]

/-- The stack's read is `MemRead` at SP: the check of R30 cannot fire there (R72). -/
theorem State.top_eq_memRead (s : State) : s.memRead s.sp.toNat = some s.top := by
  have h := s.sp.isLt
  exact s.memRead_of_le (by omega)

end Sys2Proof.Machine
end

