-- ==== Sys2Proof/Laws/State.lean ====
section
/-! SUPPORT. The update laws of the state: one lemma per field per update, and register reads after writes. -/

namespace Sys2Proof.Machine

/-! ## Registers -/

@[simp] theorem RegFile.get_set_same (f : RegFile) (r : Reg) (v : Byte) : (f.set r v).get r = v := by
  cases r <;> rfl

@[simp] theorem RegFile.get_set_other (f : RegFile) {q r : Reg} (v : Byte) (h : q ≠ r) :
    (f.set r v).get q = f.get q := by
  cases q <;> cases r <;> first | rfl | exact absurd rfl h

@[simp] theorem State.reg_setReg_same (s : State) (r : Reg) (v : Byte) : (s.setReg r v).reg r = v :=
  RegFile.get_set_same ..

@[simp] theorem State.reg_setReg_other (s : State) {q r : Reg} (v : Byte) (h : q ≠ r) :
    (s.setReg r v).reg q = s.reg q :=
  RegFile.get_set_other _ _ h

theorem State.reg_setReg (s : State) (q r : Reg) (v : Byte) :
    (s.setReg r v).reg q = if q = r then v else s.reg q := by
  by_cases h : q = r
  · subst h; simp
  · simp [h]

@[simp] theorem State.setReg_pc (s : State) (r : Reg) (v : Byte) : (s.setReg r v).pc = s.pc := rfl
@[simp] theorem State.setReg_fl (s : State) (r : Reg) (v : Byte) : (s.setReg r v).fl = s.fl := rfl
@[simp] theorem State.setReg_run (s : State) (r : Reg) (v : Byte) : (s.setReg r v).run = s.run := rfl
@[simp] theorem State.setReg_out (s : State) (r : Reg) (v : Byte) : (s.setReg r v).out = s.out := rfl
@[simp] theorem State.setReg_mem (s : State) (r : Reg) (v : Byte) : (s.setReg r v).mem = s.mem := rfl

/-! ## Program counter -/

@[simp] theorem State.advance_pc (s : State) (n : Nat) : (s.advance n).pc = s.pc + n := rfl
@[simp] theorem State.advance_reg (s : State) (n : Nat) (r : Reg) : (s.advance n).reg r = s.reg r := rfl
@[simp] theorem State.advance_fl (s : State) (n : Nat) : (s.advance n).fl = s.fl := rfl
@[simp] theorem State.advance_run (s : State) (n : Nat) : (s.advance n).run = s.run := rfl
@[simp] theorem State.advance_out (s : State) (n : Nat) : (s.advance n).out = s.out := rfl
@[simp] theorem State.advance_mem (s : State) (n : Nat) : (s.advance n).mem = s.mem := rfl

@[simp] theorem State.jump_pc (s : State) (t : Byte) : (s.jump t).pc = t.toNat := rfl
@[simp] theorem State.jump_reg (s : State) (t : Byte) (r : Reg) : (s.jump t).reg r = s.reg r := rfl
@[simp] theorem State.jump_fl (s : State) (t : Byte) : (s.jump t).fl = s.fl := rfl
@[simp] theorem State.jump_run (s : State) (t : Byte) : (s.jump t).run = s.run := rfl
@[simp] theorem State.jump_out (s : State) (t : Byte) : (s.jump t).out = s.out := rfl
@[simp] theorem State.jump_mem (s : State) (t : Byte) : (s.jump t).mem = s.mem := rfl

theorem State.branch_pc (s : State) (c : Bool) (t : Byte) :
    (s.branch c t).pc = if c = true then t.toNat else s.pc + 2 := by cases c <;> rfl
@[simp] theorem State.branch_reg (s : State) (c : Bool) (t : Byte) (r : Reg) : (s.branch c t).reg r = s.reg r := by
  cases c <;> rfl
@[simp] theorem State.branch_fl (s : State) (c : Bool) (t : Byte) : (s.branch c t).fl = s.fl := by cases c <;> rfl
@[simp] theorem State.branch_run (s : State) (c : Bool) (t : Byte) : (s.branch c t).run = s.run := by cases c <;> rfl
@[simp] theorem State.branch_out (s : State) (c : Bool) (t : Byte) : (s.branch c t).out = s.out := by cases c <;> rfl
@[simp] theorem State.branch_mem (s : State) (c : Bool) (t : Byte) : (s.branch c t).mem = s.mem := by cases c <;> rfl

/-! ## Flags -/

@[simp] theorem State.setFlags_pc (s : State) (f : Flags) : (s.setFlags f).pc = s.pc := rfl
@[simp] theorem State.setFlags_reg (s : State) (f : Flags) (r : Reg) : (s.setFlags f).reg r = s.reg r := rfl
@[simp] theorem State.setFlags_fl (s : State) (f : Flags) : (s.setFlags f).fl = f := rfl
@[simp] theorem State.setFlags_run (s : State) (f : Flags) : (s.setFlags f).run = s.run := rfl
@[simp] theorem State.setFlags_out (s : State) (f : Flags) : (s.setFlags f).out = s.out := rfl
@[simp] theorem State.setFlags_mem (s : State) (f : Flags) : (s.setFlags f).mem = s.mem := rfl

/-! ## Output port -/

@[simp] theorem State.emit_pc (s : State) (v : Byte) : (s.emit v).pc = s.pc := rfl
@[simp] theorem State.emit_reg (s : State) (v : Byte) (r : Reg) : (s.emit v).reg r = s.reg r := rfl
@[simp] theorem State.emit_fl (s : State) (v : Byte) : (s.emit v).fl = s.fl := rfl
@[simp] theorem State.emit_run (s : State) (v : Byte) : (s.emit v).run = s.run := rfl
@[simp] theorem State.emit_out (s : State) (v : Byte) : (s.emit v).out = s.out ++ [v] := rfl
@[simp] theorem State.emit_mem (s : State) (v : Byte) : (s.emit v).mem = s.mem := rfl

/-! ## Engine state -/

@[simp] theorem State.halt_pc (s : State) : s.halt.pc = s.pc := rfl
@[simp] theorem State.halt_reg (s : State) (r : Reg) : s.halt.reg r = s.reg r := rfl
@[simp] theorem State.halt_fl (s : State) : s.halt.fl = s.fl := rfl
@[simp] theorem State.halt_run (s : State) : s.halt.run = .halted := rfl
@[simp] theorem State.halt_out (s : State) : s.halt.out = s.out := rfl
@[simp] theorem State.halt_mem (s : State) : s.halt.mem = s.mem := rfl

@[simp] theorem State.enterFault_pc (s : State) (c : FaultCause) : (s.enterFault c).pc = s.pc := rfl
@[simp] theorem State.enterFault_reg (s : State) (c : FaultCause) (r : Reg) : (s.enterFault c).reg r = s.reg r := rfl
@[simp] theorem State.enterFault_fl (s : State) (c : FaultCause) : (s.enterFault c).fl = s.fl := rfl
@[simp] theorem State.enterFault_run (s : State) (c : FaultCause) : (s.enterFault c).run = .faulted c := rfl
@[simp] theorem State.enterFault_out (s : State) (c : FaultCause) : (s.enterFault c).out = s.out := rfl
@[simp] theorem State.enterFault_mem (s : State) (c : FaultCause) : (s.enterFault c).mem = s.mem := rfl

/-! ## The stack pointer and the stack's top -/

@[simp] theorem State.storeTop_pc (s : State) (v : Byte) : (s.storeTop v).pc = s.pc := rfl
@[simp] theorem State.storeTop_reg (s : State) (v : Byte) (r : Reg) : (s.storeTop v).reg r = s.reg r := rfl
@[simp] theorem State.storeTop_fl (s : State) (v : Byte) : (s.storeTop v).fl = s.fl := rfl
@[simp] theorem State.storeTop_run (s : State) (v : Byte) : (s.storeTop v).run = s.run := rfl
@[simp] theorem State.storeTop_out (s : State) (v : Byte) : (s.storeTop v).out = s.out := rfl
@[simp] theorem State.storeTop_mem (s : State) (v : Byte) :
    (s.storeTop v).mem = s.mem.write s.sp.toNat v := rfl

@[simp] theorem State.spDec_pc (s : State) : s.spDec.pc = s.pc := rfl
@[simp] theorem State.spDec_fl (s : State) : s.spDec.fl = s.fl := rfl
@[simp] theorem State.spDec_run (s : State) : s.spDec.run = s.run := rfl
@[simp] theorem State.spDec_out (s : State) : s.spDec.out = s.out := rfl
@[simp] theorem State.spDec_mem (s : State) : s.spDec.mem = s.mem := rfl
@[simp] theorem State.spDec_sp (s : State) : s.spDec.sp = byteOf (s.sp.toNat + 255) :=
  State.reg_setReg_same ..
@[simp] theorem State.spDec_reg_other (s : State) {r : Reg} (h : r ≠ .r7) : s.spDec.reg r = s.reg r :=
  State.reg_setReg_other _ _ h

@[simp] theorem State.spInc_pc (s : State) : s.spInc.pc = s.pc := rfl
@[simp] theorem State.spInc_fl (s : State) : s.spInc.fl = s.fl := rfl
@[simp] theorem State.spInc_run (s : State) : s.spInc.run = s.run := rfl
@[simp] theorem State.spInc_out (s : State) : s.spInc.out = s.out := rfl
@[simp] theorem State.spInc_mem (s : State) : s.spInc.mem = s.mem := rfl
@[simp] theorem State.spInc_sp (s : State) : s.spInc.sp = byteOf (s.sp.toNat + 1) :=
  State.reg_setReg_same ..
@[simp] theorem State.spInc_reg_other (s : State) {r : Reg} (h : r ≠ .r7) : s.spInc.reg r = s.reg r :=
  State.reg_setReg_other _ _ h

@[simp] theorem State.push_pc (s : State) (v : Byte) : (s.push v).pc = s.pc := rfl
@[simp] theorem State.push_fl (s : State) (v : Byte) : (s.push v).fl = s.fl := rfl
@[simp] theorem State.push_run (s : State) (v : Byte) : (s.push v).run = s.run := rfl
@[simp] theorem State.push_out (s : State) (v : Byte) : (s.push v).out = s.out := rfl
@[simp] theorem State.push_reg (s : State) (v : Byte) (r : Reg) : (s.push v).reg r = s.spDec.reg r := rfl
@[simp] theorem State.push_mem (s : State) (v : Byte) : (s.push v).mem = s.mem.write s.pushAddr v := rfl

theorem State.pushAddr_eq (s : State) : s.pushAddr = (s.sp.toNat + 255) % 256 := by
  simp [State.pushAddr, byteOf]

theorem State.pushAddr_lt (s : State) : s.pushAddr < 256 := s.spDec.sp.isLt

end Sys2Proof.Machine
end

