-- ==== Sys2Proof/Laws/Ops.lean ====
section
/-! SUPPORT. One lemma per shared operation: everything it can answer. -/

namespace Sys2Proof.Machine

/-! ## Register-index bytes -/

/-- A byte names a register exactly when its value is the register's number (R44). -/
theorem regOf_eq_some {f : Byte} {r : Reg} : regOf f = some r ↔ f.toNat = r.index := by
  unfold regOf
  split <;> cases r <;> simp_all [Reg.index]

/-- A byte names no register exactly when its value is 8 or more (R44). -/
theorem regOf_eq_none {f : Byte} : regOf f = none ↔ 8 ≤ f.toNat := by
  unfold regOf
  split <;> simp_all
  omega

/-- The two things the register check can do (R57). -/
theorem withReg_eq (f : Byte) (s : State) (k : Reg → Result) :
    (∃ r, f.toNat = r.index ∧ withReg f s k = k r) ∨
    (8 ≤ f.toNat ∧ withReg f s k = .next (s.enterFault (.registerIndexError f s.pc))) := by
  unfold withReg
  cases h : regOf f with
  | none => exact .inr ⟨regOf_eq_none.mp h, rfl⟩
  | some r => exact .inl ⟨r, regOf_eq_some.mp h, rfl⟩

theorem withReg_named {f : Byte} {r : Reg} (h : f.toNat = r.index) (s : State) (k : Reg → Result) :
    withReg f s k = k r := by
  simp [withReg, regOf_eq_some.mpr h]

theorem withReg_bad {f : Byte} (h : 8 ≤ f.toNat) (s : State) (k : Reg → Result) :
    withReg f s k = .next (s.enterFault (.registerIndexError f s.pc)) := by
  simp [withReg, regOf_eq_none.mpr h, raiseFault]

theorem withRegs_named {ra rb : Byte} {a b : Reg} (ha : ra.toNat = a.index) (hb : rb.toNat = b.index) (s : State)
    (k : Reg → Reg → Result) : withRegs ra rb s k = k a b := by
  simp [withRegs, withReg_named ha, withReg_named hb]

theorem withRegs_bad_first {ra : Byte} (h : 8 ≤ ra.toNat) (rb : Byte) (s : State) (k : Reg → Reg → Result) :
    withRegs ra rb s k = .next (s.enterFault (.registerIndexError ra s.pc)) := by
  simp [withRegs, withReg_bad h]

theorem withRegs_bad_second {ra rb : Byte} {a : Reg} (ha : ra.toNat = a.index) (h : 8 ≤ rb.toNat) (s : State)
    (k : Reg → Reg → Result) :
    withRegs ra rb s k = .next (s.enterFault (.registerIndexError rb s.pc)) := by
  simp [withRegs, withReg_named ha, withReg_bad h]

/-! ## ALU and comparison -/

@[simp] theorem byteOf_toNat (n : Nat) : (byteOf n).toNat = n % 256 := by simp [byteOf]

/-- ADD's result is the sum modulo 256 (R13, R63). -/
theorem alu_add_toNat (a b : Byte) : (alu .add a b).toNat = (a.toNat + b.toNat) % 256 := by simp [alu]

/-- MUL's result is the product modulo 256 (R13, R64). -/
theorem alu_mul_toNat (a b : Byte) : (alu .mul a b).toNat = (a.toNat * b.toNat) % 256 := by simp [alu]

/-- Each flag of a comparison is the unsigned comparison it stands for (R66). -/
theorem compareFlags_eq (a b : Byte) :
    compareFlags a b = ⟨decide (a.toNat = b.toNat), decide (a.toNat > b.toNat), decide (a.toNat < b.toNat)⟩ := by
  unfold compareFlags
  split
  · rename_i h; simp [h]
  · rename_i h
    split
    · rename_i h'; simp only [Flags.mk.injEq]; exact ⟨by simp [h], by simp [h'], by simp; omega⟩
    · rename_i h'; simp only [Flags.mk.injEq]; exact ⟨by simp [h], by simpa using h', by simp; omega⟩

/-! ## Fetching -/

theorem readBytes_length {s : State} {a n : Nat} {bs : List Byte} (h : readBytes s a n = .ok bs) : bs.length = n := by
  induction n generalizing a bs with
  | zero => simp only [readBytes, Except.ok.injEq] at h; simp [← h]
  | succ n ih =>
    simp only [readBytes] at h
    split at h
    · exact absurd h (by simp)
    · split at h
      · exact absurd h (by simp)
      · rename_i heq
        simp only [Except.ok.injEq] at h
        simp [← h, ih heq]

/-- The operand fetch succeeds exactly when the last byte is an address of memory (R56). -/
theorem readBytes_ok_bound {s : State} {a n : Nat} {bs : List Byte} (h : readBytes s a n = .ok bs) (hn : 0 < n) :
    a + n ≤ 256 := by
  induction n generalizing a bs with
  | zero => exact absurd hn (by simp)
  | succ n ih =>
    simp only [readBytes] at h
    split at h
    · exact absurd h (by simp)
    · rename_i heq
      have := (State.memRead_eq_some heq).1
      split at h
      · exact absurd h (by simp)
      · rename_i heq2
        rcases Nat.eq_zero_or_pos n with h0 | h0
        · omega
        · have := ih heq2 h0; omega

/-- A failing operand fetch names address 256 when it starts at an address of memory or just above it (R56, R84). -/
theorem readBytes_error {s : State} {a n e : Nat} (h : readBytes s a n = .error e) (ha : a ≤ 256) : e = 256 := by
  induction n generalizing a e with
  | zero => simp [readBytes] at h
  | succ n ih =>
    simp only [readBytes] at h
    split at h
    · rename_i heq
      simp only [Except.error.injEq] at h
      by_cases hle : a ≤ 255
      · rw [State.memRead_of_le _ hle] at heq; simp at heq
      · omega
    · rename_i heq
      have := (State.memRead_eq_some heq).1
      split at h
      · rename_i heq2
        simp only [Except.error.injEq] at h
        exact h ▸ ih heq2 (by omega)
      · exact absurd h (by simp)

/-- An operand fetch that fits below 256 reads the bytes memory holds there, in ascending order (R56). -/
theorem readBytes_of_fits (s : State) {a n : Nat} (h : a + n ≤ 256) :
    readBytes s a n = .ok ((List.range n).map (fun k => s.mem.read (a + k))) := by
  induction n generalizing a with
  | zero => rfl
  | succ n ih =>
    rw [List.range_succ_eq_map]
    simp only [readBytes, State.memRead_of_le s (show a ≤ 255 by omega), ih (show a + 1 + n ≤ 256 by omega)]
    simp [Function.comp_def, Nat.add_assoc, Nat.add_comm 1]

/-- Opcode lookup is exact (R47). -/
theorem opcodeOf_eq_some {b : Byte} {op : Opcode} : opcodeOf b = some op ↔ op.byte = b := by
  constructor
  · intro h
    have := List.find?_some h
    simpa using this
  · rintro rfl
    cases op <;> rfl

/-- Everything the fetch can answer (R54-R56). -/
theorem fetch_cases (s : State) :
    (255 < s.pc ∧ fetch s = .error (.addressError s.pc s.pc)) ∨
    (s.pc ≤ 255 ∧ opcodeOf (s.mem.read s.pc) = none ∧ fetch s = .error (.decodeError (s.mem.read s.pc) s.pc)) ∨
    (∃ op : Opcode, s.pc ≤ 255 ∧ op.byte = s.mem.read s.pc ∧ 255 < s.pc + op.format.operandCount ∧
      fetch s = .error (.addressError 256 s.pc)) ∨
    (∃ (op : Opcode) (bs : List Byte), s.pc ≤ 255 ∧ op.byte = s.mem.read s.pc ∧ s.pc + op.length ≤ 256 ∧
      readBytes s (s.pc + 1) op.format.operandCount = .ok bs ∧
      fetch s = .ok (op.toInstr (bs.getD 0 0) (bs.getD 1 0))) := by
  by_cases hpc : s.pc ≤ 255
  · cases hop : opcodeOf (s.mem.read s.pc) with
    | none => exact .inr (.inl ⟨hpc, rfl, by simp [fetch, hpc, hop]⟩)
    | some op =>
      have hb := opcodeOf_eq_some.mp hop
      cases hr : readBytes s (s.pc + 1) op.format.operandCount with
      | error e =>
        have he := readBytes_error hr (by omega)
        refine .inr (.inr (.inl ⟨op, hpc, hb, ?_, by simp [fetch, hpc, hop, hr, he]⟩))
        by_contra hcon
        rw [readBytes_of_fits s (by omega)] at hr
        exact absurd hr (by simp)
      | ok bs =>
        refine .inr (.inr (.inr ⟨op, bs, hpc, hb, ?_, hr, by simp [fetch, hpc, hop, hr]⟩))
        unfold Opcode.length
        rcases Nat.eq_zero_or_pos op.format.operandCount with h0 | h0
        · omega
        · have := readBytes_ok_bound hr h0; omega
  · have h : 255 < s.pc := by omega
    exact .inl ⟨h, by simp [fetch, h]⟩

/-! ## One step -/

/-- Everything one step can do (R53, R62). -/
theorem step_cases (s : State) :
    (s.run = .halted ∧ step s = .fault .noStepHalted) ∨
    (∃ c, s.run = .faulted c ∧ step s = .fault (.noStepFaulted c)) ∨
    (∃ c, s.run = .running ∧ fetch s = .error c ∧ step s = .next (s.enterFault c)) ∨
    (∃ i, s.run = .running ∧ fetch s = .ok i ∧ step s = exec i s) := by
  unfold step
  cases hr : s.run with
  | halted => exact .inl ⟨rfl, rfl⟩
  | faulted c => exact .inr (.inl ⟨c, rfl, rfl⟩)
  | running =>
    cases hf : fetch s with
    | error c => exact .inr (.inr (.inl ⟨c, rfl, rfl, rfl⟩))
    | ok i => exact .inr (.inr (.inr ⟨i, rfl, rfl, rfl⟩))

end Sys2Proof.Machine
end

