-- ==== Sys2Proof/Laws/Exec.lean ====
section
/-! SUPPORT. What an instruction can do, said once: it completes with its own effect, or it takes one of the two faults an
instruction can take after its fetch. -/

namespace Sys2Proof.Machine

/-- `t` is what `i` leaves when it completes from `s`. -/
def Completes (i : Instr) (s t : State) : Prop :=
  match i with
  | .hlt => t = s.halt
  | .ldi ra imm => ∃ a, Names ra a ∧ t = (s.setReg a imm).advance 3
  | .prn ra => ∃ a, Names ra a ∧ t = (s.emit (s.reg a)).advance 2
  | .mul ra rb => ∃ a b, Names ra a ∧ Names rb b ∧ t = (s.setReg a (alu .mul (s.reg a) (s.reg b))).advance 3
  | .push ra => ∃ a, Names ra a ∧ t = (s.push (s.spDec.reg a)).advance 2
  | .pop ra => ∃ a, Names ra a ∧ t = (s.setReg a s.top).spInc.advance 2
  | .call ra => ∃ a, Names ra a ∧ s.pc ≤ 253 ∧
      t = (s.push (byteOf (s.pc + 2))).jump ((s.push (byteOf (s.pc + 2))).reg a)
  | .ret => t = s.spInc.jump s.top
  | .add ra rb => ∃ a b, Names ra a ∧ Names rb b ∧ t = (s.setReg a (alu .add (s.reg a) (s.reg b))).advance 3
  | .cmp ra rb => ∃ a b, Names ra a ∧ Names rb b ∧ t = (s.setFlags (compareFlags (s.reg a) (s.reg b))).advance 3
  | .jmp ra => ∃ a, Names ra a ∧ t = s.jump (s.reg a)
  | .jeq ra => ∃ a, Names ra a ∧ t = s.branch s.fl.e (s.reg a)
  | .jne ra => ∃ a, Names ra a ∧ t = s.branch (!s.fl.e) (s.reg a)

/-- `c` is a fault `i` takes from `s` after its fetch. -/
def Faults (i : Instr) (s : State) (c : FaultCause) : Prop :=
  (∃ f : Byte, 8 ≤ f.toNat ∧ c = .registerIndexError f s.pc) ∨
  (∃ ra, i = .call ra ∧ 254 ≤ s.pc ∧ c = .addressError (s.pc + 2) s.pc)

theorem withReg_next {i : Instr} {f : Byte} {s t : State} {k : Reg → Result} (h : withReg f s k = .next t) :
    (∃ r, Names f r ∧ k r = .next t) ∨ ∃ c, Faults i s c ∧ t = s.enterFault c := by
  rcases withReg_eq f s k with ⟨r, hr, e⟩ | ⟨hr, e⟩
  · exact .inl ⟨r, hr, e ▸ h⟩
  · rw [e] at h
    injection h with h
    exact .inr ⟨_, .inl ⟨f, hr, rfl⟩, h.symm⟩

theorem withRegs_next {i : Instr} {f g : Byte} {s t : State} {k : Reg → Reg → Result}
    (h : withRegs f g s k = .next t) :
    (∃ a b, Names f a ∧ Names g b ∧ k a b = .next t) ∨ ∃ c, Faults i s c ∧ t = s.enterFault c := by
  rcases withReg_next (i := i) h with ⟨a, ha, h⟩ | h
  · rcases withReg_next (i := i) h with ⟨b, hb, h⟩ | h
    · exact .inl ⟨a, b, ha, hb, h⟩
    · exact .inr h
  · exact .inr h

/-- Everything `exec` can do where it answers a next state: complete, or take a fault. -/
theorem exec_cases {i : Instr} {s t : State} (h : exec i s = .next t) :
    Completes i s t ∨ ∃ c, Faults i s c ∧ t = s.enterFault c := by
  cases i
  case hlt => exact .inl (Host.Outcome.next.inj h).symm
  case ret => exact .inl (Host.Outcome.next.inj h).symm
  case call ra =>
    rcases withReg_next (i := .call ra) h with ⟨a, ha, h⟩ | h
    · split at h
      · injection h with h
        exact .inr ⟨_, .inr ⟨ra, rfl, by omega, rfl⟩, h.symm⟩
      · injection h with h
        exact .inl ⟨a, ha, by omega, h.symm⟩
    · exact .inr h
  all_goals first
    | (rcases withReg_next h with ⟨a, ha, h⟩ | h
       · exact .inl ⟨a, ha, (Host.Outcome.next.inj h).symm⟩
       · exact .inr h)
    | (rcases withRegs_next h with ⟨a, b, ha, hb, h⟩ | h
       · exact .inl ⟨a, b, ha, hb, (Host.Outcome.next.inj h).symm⟩
       · exact .inr h)

/-- A completed fetch read the instruction's opcode byte at pc, and the instruction fits below 256. -/
theorem fetch_ok {s : State} {i : Instr} (h : fetch s = .ok i) :
    s.pc ≤ 255 ∧ s.mem.read s.pc = i.opcode.byte ∧ s.pc + i.opcode.length ≤ 256 := by
  rcases fetch_cases s with h' | h' | ⟨_, h'⟩ | ⟨op, bs, hpc, hb, hl, _, e⟩
  · simp [h'] at h
  · simp [h'] at h
  · simp [h'] at h
  · rw [h] at e
    injection e with e
    have hop : i.opcode = op := by subst e; cases op <;> rfl
    rw [hop]
    exact ⟨hpc, hb.symm, hl⟩

/-- The fetch of an instruction that fits below 256. -/
theorem fetch_of_fits {s : State} {op : Opcode} (hb : op.byte = s.mem.read s.pc) (hf : s.pc + op.length ≤ 256) :
    fetch s = .ok (op.toInstr (s.mem.read (s.pc + 1)) (s.mem.read (s.pc + 2))) := by
  unfold Opcode.length at hf
  have hop : opcodeOf (s.mem.read s.pc) = some op := opcodeOf_eq_some.mpr hb
  simp only [fetch, State.memRead_of_le s (show s.pc ≤ 255 by omega), hop,
    readBytes_of_fits s (show s.pc + 1 + op.format.operandCount ≤ 256 by omega)]
  cases op <;> rfl

/-- A step that answers a next state: the core was running, and it took a fetch fault or ran the instruction. -/
theorem step_next {s t : State} (h : step s = .next t) :
    s.run = .running ∧ ((∃ c, fetch s = .error c ∧ t = s.enterFault c) ∨ ∃ i, fetch s = .ok i ∧ exec i s = .next t) := by
  rcases step_cases s with ⟨_, e⟩ | ⟨_, _, e⟩ | ⟨c, hr, hf, e⟩ | ⟨i, hr, hf, e⟩
  · simp [e] at h
  · simp [e] at h
  · rw [e] at h
    exact ⟨hr, .inl ⟨c, hf, (Host.Outcome.next.inj h).symm⟩⟩
  · exact ⟨hr, .inr ⟨i, hf, e ▸ h⟩⟩

end Sys2Proof.Machine
end

