-- ==== Sys2Proof/Laws/PerInstr.lean ====
section
/-! SUPPORT. Statements made once per instruction. Family `EncodeShape`: an encoding is the opcode byte of R45 followed by
as many operand bytes as the format calls for, so its length is the opcode's length, 1 to 3 (R42, R43). -/

namespace Sys2Proof.Laws.EncodeShape

/-- The encoding begins with the opcode's byte, and its length is the length the opcode determines. -/
def Statement (i : Instr) : Prop :=
  (encode i).head? = some i.opcode.byte ∧ (encode i).length = i.opcode.length ∧ i.opcode.length ≤ 3

theorem opcode_length_le (op : Opcode) : op.length ≤ 3 := by cases op <;> decide

theorem hlt : Statement .hlt := ⟨rfl, rfl, opcode_length_le _⟩
theorem ldi (ra imm : Byte) : Statement (.ldi ra imm) := ⟨rfl, rfl, opcode_length_le _⟩
theorem prn (ra : Byte) : Statement (.prn ra) := ⟨rfl, rfl, opcode_length_le _⟩
theorem mul (ra rb : Byte) : Statement (.mul ra rb) := ⟨rfl, rfl, opcode_length_le _⟩
theorem push (ra : Byte) : Statement (.push ra) := ⟨rfl, rfl, opcode_length_le _⟩
theorem pop (ra : Byte) : Statement (.pop ra) := ⟨rfl, rfl, opcode_length_le _⟩
theorem call (ra : Byte) : Statement (.call ra) := ⟨rfl, rfl, opcode_length_le _⟩
theorem ret : Statement .ret := ⟨rfl, rfl, opcode_length_le _⟩
theorem add (ra rb : Byte) : Statement (.add ra rb) := ⟨rfl, rfl, opcode_length_le _⟩
theorem cmp (ra rb : Byte) : Statement (.cmp ra rb) := ⟨rfl, rfl, opcode_length_le _⟩
theorem jmp (ra : Byte) : Statement (.jmp ra) := ⟨rfl, rfl, opcode_length_le _⟩
theorem jeq (ra : Byte) : Statement (.jeq ra) := ⟨rfl, rfl, opcode_length_le _⟩
theorem jne (ra : Byte) : Statement (.jne ra) := ⟨rfl, rfl, opcode_length_le _⟩

end Sys2Proof.Laws.EncodeShape
end

