-- ==== Sys2Proof/Tests/Slice0.lean ====
section
/-! SUPPORT. The model's own tests: well-formedness, decoding of written-out words, one step of each instruction on a
small state (expected values from 95_test_vectors.md and the examples of the rules), and a witness for the hypotheses
of every statement that has any. -/

namespace Sys2Proof.Tests

open Sys2Proof.Machine

/-! ## Helpers -/

/-- The reset state with `bs` placed at `a` and pc there. -/
def codeAt (a : Nat) (bs : List Byte) : State := { State.reset with pc := a, mem := Memory.place [] a bs }

/-- The next state of a step, if it has one. -/
def after (s : State) : Option State :=
  match step s with
  | .next t => some t
  | .fault _ => none
  | .refused _ => none

/-! ## Well-formedness: one ill-formed term for each check -/

theorem test_wf_ldi : (Instr.ldi 8 0).wellFormed = false := by decide
theorem test_wf_prn : (Instr.prn 8).wellFormed = false := by decide
theorem test_wf_mul_ra : (Instr.mul 8 0).wellFormed = false := by decide
theorem test_wf_mul_rb : (Instr.mul 0 8).wellFormed = false := by decide
theorem test_wf_push : (Instr.push 8).wellFormed = false := by decide
theorem test_wf_pop : (Instr.pop 255).wellFormed = false := by decide
theorem test_wf_call : (Instr.call 8).wellFormed = false := by decide
theorem test_wf_add_ra : (Instr.add 8 0).wellFormed = false := by decide
theorem test_wf_add_rb : (Instr.add 0 255).wellFormed = false := by decide
theorem test_wf_cmp_ra : (Instr.cmp 9 0).wellFormed = false := by decide
theorem test_wf_cmp_rb : (Instr.cmp 0 9).wellFormed = false := by decide
theorem test_wf_jmp : (Instr.jmp 8).wellFormed = false := by decide
theorem test_wf_jeq : (Instr.jeq 8).wellFormed = false := by decide
theorem test_wf_jne : (Instr.jne 8).wellFormed = false := by decide
theorem test_wf_good : (Instr.ldi 7 255).wellFormed = true ∧ (Instr.add 7 7).wellFormed = true := by decide

/-! ## Decoding: every constructor by a word written out from R43 and R45 -/

theorem test_decode_hlt : decode [0b00000001] = .ok (.hlt, []) := by rfl
theorem test_decode_ldi : decode [0b10000010, 0b00000101, 0b11111111] = .ok (.ldi 5 255, []) := by rfl
theorem test_decode_prn : decode [0b01000111, 0b00000001] = .ok (.prn 1, []) := by rfl
theorem test_decode_mul : decode [0b10100010, 0b00000010, 0b00000011] = .ok (.mul 2 3, []) := by rfl
theorem test_decode_push : decode [0b01000101, 0b00000111] = .ok (.push 7, []) := by rfl
theorem test_decode_pop : decode [0b01000110, 0b00000010] = .ok (.pop 2, []) := by rfl
theorem test_decode_call : decode [0b01010000, 0b00000100] = .ok (.call 4, []) := by rfl
theorem test_decode_ret : decode [0b00010001, 0b10101010] = .ok (.ret, [0b10101010]) := by rfl
theorem test_decode_add : decode [0b10100000, 0b00000000, 0b00000001] = .ok (.add 0 1, []) := by rfl
theorem test_decode_cmp : decode [0b10100111, 0b00000110, 0b00001001] = .ok (.cmp 6 9, []) := by rfl
theorem test_decode_jmp : decode [0b01010100, 0b00000011] = .ok (.jmp 3, []) := by rfl
theorem test_decode_jeq : decode [0b01010101, 0b00000100] = .ok (.jeq 4, []) := by rfl
theorem test_decode_jne : decode [0b01010110, 0b00000011] = .ok (.jne 3, []) := by rfl

/-- 95_test_vectors.md X1-X4, and an operand that is not there (K7). -/
theorem test_decode_rejects :
    decode [0x00] = .error (.illegalOpcode 0x00) ∧ decode [0x02] = .error (.illegalOpcode 0x02) ∧
    decode [0xA1, 0, 0] = .error (.illegalOpcode 0xA1) ∧ decode [0xFF] = .error (.illegalOpcode 0xFF) ∧
    decode [0x82, 9] = .error (.missingOperand 2) ∧ decode [0x54] = .error (.missingOperand 1) ∧
    decode [] = .error .noOpcode := ⟨rfl, rfl, rfl, rfl, rfl, rfl, rfl⟩

/-- A table word: byte 0 is bits 7:0, byte 1 bits 15:8, byte 2 bits 23:16; bits at or above `nbits` are 0. -/
theorem test_decodeTableWord :
    decodeTableWord 24 0x010082 = some (.ldi 0 1) ∧ decodeTableWord 8 0x0201A0 = some (.add 0 0) ∧
    decodeTableWord 16 0x0754 = some (.jmp 7) ∧ decodeTableWord 8 0x00 = none := ⟨rfl, rfl, rfl, rfl⟩

theorem test_withFetchWord :
    (after (State.reset.withFetchWord 24 0x2A0382)).map (fun t => (t.reg .r3, t.pc)) = some (0x2A, 3) ∧
    (after (State.reset.withFetchWord 8 0x01)).map (fun t => (t.run, t.pc)) = some (.halted, 0) := by decide

/-! ## One step of each instruction -/

/-- A1: 200 + 100 = 44. -/
theorem test_add_wraps :
    (after ((codeAt 10 [0xA0, 0, 1]).setReg .r0 200 |>.setReg .r1 100)).map
      (fun t => (t.reg .r0, t.reg .r1, t.pc, t.fl)) = some (44, 100, 13, ⟨false, false, false⟩) := by decide
/-- A5: ADD R7, R3 moves the stack. -/
theorem test_add_sp : (after ((codeAt 0 [0xA0, 7, 3]).setReg .r3 7)).map (fun t => t.sp) = some 0xFB := by decide
/-- A8: 255 x 255 = 65025, low byte 1. -/
theorem test_mul_low_byte :
    (after ((codeAt 0 [0xA2, 0, 1]).setReg .r0 255 |>.setReg .r1 255)).map (fun t => t.reg .r0) = some 1 := by decide
/-- A11: squaring 16 gives 0; a source that is also the destination. -/
theorem test_mul_same : (after ((codeAt 0 [0xA2, 2, 2]).setReg .r2 16)).map (fun t => (t.reg .r2, t.pc)) = some (0, 3) := by
  decide
/-- B5: the comparison is unsigned. -/
theorem test_cmp_unsigned :
    (after ((codeAt 0 [0xA7, 0, 1]).setReg .r0 128 |>.setReg .r1 127)).map (fun t => (t.fl, t.pc)) =
      some (⟨false, true, false⟩, 3) := by decide
/-- B7 and B3: the old flags are cleared, and the second operand is the right side. -/
theorem test_cmp_clears :
    (after (((codeAt 0 [0xA7, 0, 1]).setReg .r0 3 |>.setReg .r1 9).setFlags ⟨true, false, false⟩)).map (fun t => t.fl) =
      some ⟨false, false, true⟩ := by decide
/-- B8 and B10. -/
theorem test_jmp : (after ((codeAt 40 [0x54, 3]).setReg .r3 0x0C)).map (fun t => t.pc) = some 12 ∧
    (after (codeAt 40 [0x54, 7])).map (fun t => t.pc) = some 0xF4 := by decide
/-- B11: taken. -/
theorem test_jeq_taken :
    (after (((codeAt 40 [0x55, 4]).setReg .r4 0x20).setFlags ⟨true, false, false⟩)).map (fun t => (t.pc, t.fl.e)) =
      some (32, true) := by decide
/-- B12: G set, not taken. -/
theorem test_jeq_not_taken :
    (after (((codeAt 40 [0x55, 4]).setReg .r4 0x20).setFlags ⟨false, true, false⟩)).map (fun t => t.pc) = some 42 := by
  decide
/-- B16: taken from reset's flags. -/
theorem test_jne_taken : (after ((codeAt 40 [0x56, 3]).setReg .r3 12)).map (fun t => t.pc) = some 12 := by decide
/-- B15: not taken. -/
theorem test_jne_not_taken :
    (after (((codeAt 40 [0x56, 3]).setReg .r3 12).setFlags ⟨true, false, false⟩)).map (fun t => t.pc) = some 42 := by decide
/-- C2: SP wraps below 0, no fault. -/
theorem test_push_wraps :
    (after ((codeAt 20 [0x45, 1]).setReg .r1 5 |>.setReg .r7 0)).map
      (fun t => (t.sp, t.mem.read 0xFF, t.pc, t.run)) = some (0xFF, 5, 22, .running) := by decide
/-- C3: PUSH R7 stores the decremented SP. -/
theorem test_push_r7 : (after (codeAt 20 [0x45, 7])).map (fun t => (t.sp, t.mem.read 0xF3)) = some (0xF3, 0xF3) := by decide
/-- C6: SP wraps above 255. -/
theorem test_pop_wraps :
    (after (((codeAt 20 [0x46, 3]).setReg .r7 0xFF).storeTop 0x2A)).map (fun t => (t.reg .r3, t.sp, t.pc)) =
      some (0x2A, 0, 22) := by decide
/-- C7: POP R7 leaves the popped byte plus 1. -/
theorem test_pop_r7 :
    (after (((codeAt 0 [0x46, 7]).setReg .r7 0x30).storeTop 0x10)).map (fun t => t.sp) = some 0x11 := by decide
/-- C8. -/
theorem test_call :
    (after ((codeAt 6 [0x50, 2]).setReg .r2 11)).map (fun t => (t.sp, t.mem.read 0xF3, t.pc)) = some (0xF3, 8, 11) := by
  decide
/-- C9: CALL R7 goes to the decremented SP. -/
theorem test_call_r7 :
    (after ((codeAt 8 [0x50, 7]).setReg .r7 0x50)).map (fun t => (t.sp, t.mem.read 0x4F, t.pc)) = some (0x4F, 10, 0x4F) := by
  decide
/-- C12. -/
theorem test_ret :
    (after (((codeAt 14 [0x11]).setReg .r7 0xF3).storeTop 8)).map (fun t => (t.sp, t.pc)) = some (0xF4, 8) := by decide
/-- C14: RET at 255 executes. -/
theorem test_ret_at_255 : (after ((codeAt 255 [0x11]).setReg .r7 0xF3)).map (fun t => (t.sp, t.pc)) = some (0xF4, 0) := by
  decide
/-- K2: HLT at 255. -/
theorem test_hlt : (after (codeAt 255 [0x01])).map (fun t => (t.run, t.pc)) = some (.halted, 255) := by decide
/-- K4, K5. -/
theorem test_ldi : (after (codeAt 0 [0x82, 5, 0xFF])).map (fun t => (t.reg .r5, t.pc)) = some (255, 3) ∧
    (after (codeAt 0 [0x82, 7, 0x10])).map (fun t => t.sp) = some 0x10 := by decide
/-- K9, K10: OUT grows at its end by the named register's byte. -/
theorem test_prn :
    (after (((codeAt 0 [0x47, 1]).setReg .r1 200).emit 7)).map (fun t => (t.out, t.pc)) = some ([7, 200], 2) ∧
    (after (codeAt 0 [0x47, 7])).map (fun t => t.out) = some [244] := by decide

/-! ## Faults -/

/-- X1, X3. -/
theorem test_fault_decode : (after (codeAt 5 [0xA1])).map (fun t => t.run) = some (.faulted (.decodeError 0xA1 5)) ∧
    (after State.reset).map (fun t => t.run) = some (.faulted (.decodeError 0 0)) := by decide
/-- A14, A15, B17: ra before rb; checked though not taken. -/
theorem test_fault_register :
    (after (codeAt 0 [0xA2, 9, 10])).map (fun t => t.run) = some (.faulted (.registerIndexError 9 0)) ∧
    (after (codeAt 0 [0xA0, 1, 255])).map (fun t => t.run) = some (.faulted (.registerIndexError 255 0)) ∧
    (after (codeAt 0 [0x55, 9])).map (fun t => t.run) = some (.faulted (.registerIndexError 9 0)) := by decide
/-- K7: the address fault comes before the register check; X5: the fetch at 256. -/
theorem test_fault_address :
    (after (codeAt 254 [0x82, 9])).map (fun t => t.run) = some (.faulted (.addressError 256 254)) ∧
    (after (codeAt 255 [0x54])).map (fun t => t.run) = some (.faulted (.addressError 256 255)) ∧
    (after (codeAt 256 [])).map (fun t => t.run) = some (.faulted (.addressError 256 256)) := by decide
/-- C10, C11: CALL at 254 faults with no effect; CALL at 253 completes. -/
theorem test_call_at_the_top :
    (after (codeAt 254 [0x50, 0])).map (fun t => (t.run, t.sp, t.pc)) =
      some (.faulted (.addressError 256 254), 0xF4, 254) ∧
    (after ((codeAt 253 [0x50, 0]).setReg .r0 0x10)).map (fun t => (t.mem.read 0xF3, t.pc)) = some (255, 0x10) := by decide

/-! ## Texts and load -/

/-- The lines of program P1's image text (95_test_vectors.md), with their comments. -/
theorem test_parseImage :
    parseImage ['1','0','0','0','0','0','1','0',' ','#',' ','L','D','I','\n','\n','0','0','0','0','0','0','0','0','\n',
      '0','0','0','0','1','0','0','0'] = some [0x82, 0, 8] ∧
    parseImage ['1','0','2'] = none ∧ parseImage ['1','0','0','0','0','0','0','0','0'] = none := by decide

/-- The spellings of R50: case of registers, the SP alias, the three immediate forms, `;` between statements. -/
theorem test_assemble :
    assemble ['P','U','S','H',' ','r','1',';',' ','P','O','P',' ','S','P'] = some [0x45, 1, 0x46, 7] ∧
    assemble ['L','D','I',' ','R','0',',',' ','2','5','5','\n','H','L','T'] = some [0x82, 0, 255, 1] ∧
    assemble ['L','D','I',' ','R','0',',','0','x','0','b'] = some [0x82, 0, 11] ∧
    assemble ['L','D','I',' ','R','0',',','2','5','6'] = none ∧ assemble ['N','O','P'] = none := by decide

/-- The codes of R82 and the exit statuses of R93. -/
theorem test_reports :
    (FaultCause.decodeError 0 0).code = 1 ∧ (FaultCause.addressError 256 0).code = 2 ∧
    (FaultCause.registerIndexError 8 0).code = 3 ∧ RunState.halted.exitStatus = some 0 ∧
    (RunState.faulted (.addressError 256 0)).exitStatus = some 1 ∧ HostError.configurationError.exitStatus = 1 := by
  decide

/-! ## Witnesses: a state and operands that meet all hypotheses of a statement together -/

theorem witness_EncodeOfDecode : decode [0x11, 0xFF] = .ok (.ret, [0xFF]) := rfl

theorem witness_IllegalOpcodesAreRejected : ∀ op : Opcode, op.byte ≠ 0xFF := by intro op; cases op <;> decide

theorem witness_StepRunsDecodedInstruction :
    (codeAt 255 [0x01]).run = .running ∧ decode ((codeAt 255 [0x01]).bytesFrom 255) = .ok (.hlt, []) ∧
    (codeAt 253 [0xA0, 0, 9]).run = .running ∧ decode ((codeAt 253 [0xA0, 0, 9]).bytesFrom 253) = .ok (.add 0 9, []) :=
  ⟨rfl, rfl, rfl, rfl⟩

theorem witness_IllegalOpcodeRaisesDecodeError :
    ((codeAt 255 [0x02]).run = .running ∧ (codeAt 255 [0x02]).pc ≤ 255 ∧
      ∀ op : Opcode, op.byte ≠ (codeAt 255 [0x02]).mem.read 255) ∧
    ((codeAt 253 [0xA0, 0, 1]).run = .running ∧ (codeAt 253 [0xA0, 0, 1]).pc ≤ 255 ∧
      Opcode.add.byte = (codeAt 253 [0xA0, 0, 1]).mem.read 253 ∧ (codeAt 253 [0xA0, 0, 1]).pc ≤ 253) :=
  ⟨⟨rfl, by decide, by intro op; cases op <;> decide⟩, rfl, by decide, rfl, by decide⟩

theorem witness_FetchBeyondMemoryRaisesAddressError :
    ((codeAt 256 []).run = .running ∧ 255 < (codeAt 256 []).pc) ∧
    ((codeAt 254 [0x82, 9]).run = .running ∧ (codeAt 254 [0x82, 9]).pc ≤ 255 ∧
      Opcode.ldi.byte = (codeAt 254 [0x82, 9]).mem.read 254 ∧ 256 < 254 + Opcode.ldi.length) := by decide

theorem witness_BadRegisterByteRaisesRegisterIndexError :
    8 ≤ (8 : Byte).toNat ∧ 8 ≤ (255 : Byte).toNat ∧ (7 : Byte).toNat ≤ 7 := by decide

theorem witness_FaultsArePrecise :
    ∃ t, step (codeAt 254 [0x50, 0]) = .next t ∧ t.run = .faulted (.addressError 256 254) := ⟨_, rfl, rfl⟩

theorem witness_StepIsEnabledExactlyWhenRunning :
    State.reset.run = .running ∧ State.reset.halt.run = .halted ∧
    (State.reset.enterFault (.decodeError 0 0)).run = .faulted (.decodeError 0 0) := ⟨rfl, rfl, rfl⟩

theorem witness_OnlyHltHalts : ∃ t, step (codeAt 255 [0x01]) = .next t ∧ t.run = .halted := ⟨_, rfl, rfl⟩

theorem witness_StepIsSafeExactlyWhen :
    (codeAt 253 [0x50, 0]).run = .running ∧ (∃ t, step (codeAt 253 [0x50, 0]) = .next t) ∧
    (codeAt 254 [0x50, 0]).run = .running ∧ (∃ t, step (codeAt 254 [0x50, 0]) = .next t) := ⟨rfl, ⟨_, rfl⟩, rfl, ⟨_, rfl⟩⟩

/-- `Names ra a` at both ends of its range, for every statement that has it. -/
theorem witness_Names : Names 0 .r0 ∧ Names 7 .r7 := by decide

theorem witness_AluAndLdiFrame :
    ∃ t, exec (.add 7 0) State.reset = .next t ∧ ¬ Names 7 .r0 ∧ ∃ u, exec (.ldi 8 0) State.reset = .next u :=
  ⟨_, rfl, by decide, _, rfl⟩

theorem witness_CmpLeavesExactlyOneFlag :
    ∃ t, step (codeAt 253 [0xA7, 0, 7]) = .next t ∧ t.run = .running ∧
      (codeAt 253 [0xA7, 0, 7]).memRead 253 = some 0b10100111 := ⟨_, rfl, rfl, rfl⟩

theorem witness_TakenConditionalIsJmp :
    (State.reset.setFlags ⟨true, false, false⟩).fl.e = true ∧ State.reset.fl.e = false := ⟨rfl, rfl⟩

theorem witness_CompareBranchOutputHaltFrame :
    (∃ t, exec (.cmp 0 7) State.reset = .next t) ∧ (∃ t, exec (.jmp 8) State.reset = .next t) ∧
    (∃ t, exec (.jeq 0) State.reset = .next t) ∧ (∃ t, exec (.jne 0) State.reset = .next t) ∧
    (∃ t, exec (.prn 7) State.reset = .next t) ∧ ∃ t, exec .hlt State.reset = .next t :=
  ⟨⟨_, rfl⟩, ⟨_, rfl⟩, ⟨_, rfl⟩, ⟨_, rfl⟩, ⟨_, rfl⟩, ⟨_, rfl⟩⟩

theorem witness_PushResult : Names 7 .r7 ∧ Names 0 .r0 ∧ (codeAt 0 [0x45, 7]).mem.wf = true := by decide

theorem witness_PopResult : Names 0 .r0 ∧ Reg.r0 ≠ .r7 ∧ Names 7 .r7 := by decide

theorem witness_CallResult :
    Names 7 .r7 ∧ (codeAt 253 [0x50, 7]).pc ≤ 253 ∧ (codeAt 253 [0x50, 7]).mem.wf = true := by decide

theorem witness_CallWithoutReturnAddressFaults : Names 7 .r7 ∧ 254 ≤ (codeAt 254 [0x50, 7]).pc := by decide

theorem witness_PushAndCallFrame :
    ∃ t u, exec (.push 7) (codeAt 0 [0x45, 7]) = .next t ∧ exec (.call 0) (codeAt 253 [0x50, 0]) = .next u ∧
      0xF2 ≠ (codeAt 0 [0x45, 7]).pushAddr := ⟨_, _, rfl, rfl, by decide⟩

theorem witness_PopAndRetFrame :
    ∃ t u, exec (.pop 0) (codeAt 0 [0x46, 0]) = .next t ∧ exec .ret (codeAt 255 [0x11]) = .next u ∧
      Reg.r1 ≠ .r7 ∧ ¬ Names 0 .r1 := ⟨_, _, rfl, rfl, by decide, by decide⟩

theorem witness_PushThenPopRoundTrips :
    ∃ t u, ((codeAt 0 [0x45, 1]).setReg .r7 0).mem.wf = true ∧ Names 1 .r1 ∧ Names 2 .r2 ∧ Reg.r1 ≠ .r7 ∧ Reg.r2 ≠ .r7 ∧
      exec (.push 1) ((codeAt 0 [0x45, 1]).setReg .r7 0) = .next t ∧ exec (.pop 2) t = .next u :=
  ⟨_, _, by decide, by decide, by decide, by decide, by decide, rfl, rfl⟩

theorem witness_CallThenRetReturns :
    ∃ t v, (codeAt 253 [0x50, 0]).mem.wf = true ∧ Names 0 .r0 ∧ (codeAt 253 [0x50, 0]).pc ≤ 253 ∧
      exec (.call 0) (codeAt 253 [0x50, 0]) = .next t ∧ t.reg .r7 = t.reg .r7 ∧
      t.mem.read (t.reg .r7).toNat = t.mem.read (t.reg .r7).toNat ∧ exec .ret t = .next v :=
  ⟨_, _, by decide, by decide, by decide, rfl, rfl, rfl, rfl⟩

theorem witness_RegisterWritesByInstruction :
    ∃ t, exec (.ldi 0 1) State.reset = .next t ∧ t.reg .r0 ≠ State.reset.reg .r0 := ⟨_, rfl, by decide⟩

/-- Each instruction completes somewhere, from a running state. -/
theorem witness_NextPcByInstruction :
    State.reset.run = .running ∧
    ∀ i ∈ [Instr.hlt, .ldi 7 255, .add 0 7, .mul 7 0, .cmp 0 7, .prn 7, .push 0, .pop 7, .jmp 0, .jeq 7, .jne 0, .call 7,
      .ret], ∃ t, exec i State.reset = .next t ∧ t.safe := by
  refine ⟨rfl, ?_⟩
  simp only [List.forall_mem_cons]
  exact ⟨⟨_, rfl, nofun⟩, ⟨_, rfl, nofun⟩, ⟨_, rfl, nofun⟩, ⟨_, rfl, nofun⟩, ⟨_, rfl, nofun⟩, ⟨_, rfl, nofun⟩,
    ⟨_, rfl, nofun⟩, ⟨_, rfl, nofun⟩, ⟨_, rfl, nofun⟩, ⟨_, rfl, nofun⟩, ⟨_, rfl, nofun⟩, ⟨_, rfl, nofun⟩,
    ⟨_, rfl, nofun⟩, nofun⟩

theorem witness_OnlyCmpWritesFlags :
    ∃ t, step (codeAt 0 [0xA0, 0, 1]) = .next t ∧ (codeAt 0 [0xA0, 0, 1]).memRead 0 ≠ some 0b10100111 :=
  ⟨_, rfl, by decide⟩

theorem witness_OutIsAppendOnlyAndUnread :
    ∃ t u, step (codeAt 0 [0x47, 7]) = .next t ∧ step (codeAt 0 [0x01]) = .next u ∧
      (codeAt 0 [0x01]).memRead 0 ≠ some 0b01000111 := ⟨_, _, rfl, rfl, by decide⟩

theorem witness_FlagsGAndLAreNeverRead : ∃ t, step (codeAt 0 [0x55, 0]) = .next t := ⟨_, rfl⟩

theorem witness_OnlyPushAndCallWriteMemory :
    ∃ t, step (codeAt 0 [0x11]) = .next t ∧ (codeAt 0 [0x11]).memRead 0 ≠ some 0b01000101 ∧
      (codeAt 0 [0x11]).memRead 0 ≠ some 0b01010000 ∧ 0 ≠ (((codeAt 0 [0x11]).reg .r7).toNat + 255) % 256 :=
  ⟨_, rfl, by decide, by decide, by decide⟩

/-- The setting of program P5: SP = 9, PUSH at 6, so the push stores to 8. -/
theorem witness_FetchSeesThePushedByte :
    ∃ t u, ((codeAt 6 [0x45, 0]).setReg .r7 9 |>.setReg .r0 1).mem.wf = true ∧
      ((codeAt 6 [0x45, 0]).setReg .r7 9 |>.setReg .r0 1).run = .running ∧ Names 0 .r0 ∧ Reg.r0 ≠ .r7 ∧
      exec (.push 0) ((codeAt 6 [0x45, 0]).setReg .r7 9 |>.setReg .r0 1) = .next t ∧
      exec (.push 0) ((codeAt 6 [0x45, 0]).setReg .r7 9) = .next u ∧
      6 + 2 = ((codeAt 6 [0x45, 0]).setReg .r7 9 |>.setReg .r0 1).pushAddr ∧
      ((codeAt 6 [0x45, 0]).setReg .r7 9 |>.setReg .r0 1).reg .r0 = 0b00000001 ∧
      ∀ op : Opcode, op.byte ≠ ((codeAt 6 [0x45, 0]).setReg .r7 9).reg .r0 :=
  ⟨_, _, by decide, rfl, by decide, by decide, rfl, rfl, by decide, by decide, by intro op; cases op <;> decide⟩

theorem witness_EveryAddressReadsAndWrites : 0 ≤ 255 ∧ 255 ≤ 255 ∧ State.reset.mem.wf = true := by decide

theorem witness_NoAccessAbove255 : 255 < 256 := by decide

theorem witness_LoadPlacesTheImage :
    (List.replicate 256 (1 : Byte)).length ≤ 256 ∧ 256 < (List.replicate 257 (1 : Byte)).length ∧
    ([] : List Byte).length ≤ 256 :=
  ⟨by rw [List.length_replicate], by rw [List.length_replicate]; decide, by decide⟩

theorem witness_LoadedStatesMeetTheInvariant : ∃ s, boot [0x82, 0, 8, 1] = .ok s := ⟨_, rfl⟩

/-- ADD at 253 leaves pc at 256, the end of its range. -/
theorem witness_StepKeepsTheInvariant :
    ∃ t, Inv (codeAt 253 [0xA0, 0, 1]) ∧ step (codeAt 253 [0xA0, 0, 1]) = .next t ∧ t.pc = 256 :=
  ⟨_, ⟨by decide, by decide, by decide, trivial⟩, rfl, rfl⟩

theorem witness_ReachableStatesMeetTheInvariant : ∃ s t, Reachable [1] s ∧ Reachable [1] t ∧ t.run = .halted :=
  ⟨_, _, .start rfl, .next (.start rfl) rfl, rfl⟩

theorem witness_CanonicalTextAssembles : (Instr.ldi 7 255).wellFormed = true ∧ Instr.hlt.wellFormed = true := by decide

end Sys2Proof.Tests
end

section
/-! The registers and the ALU's results: where an instruction completes, the eight register indices, and the two
obligations of 10_state.md. -/

namespace Sys2Proof.Machine

/-- The converse of `exec_cases`: a state that `i` leaves when it completes is what `exec` answers. -/
theorem exec_of_completes {i : Instr} {s t : State} (h : Completes i s t) : exec i s = .next t := by
  cases i
  case hlt | ret =>
    exact congrArg _ h.symm
  case call ra =>
    obtain ⟨a, ha, hpc, rfl⟩ := h
    exact (withReg_named ha s _).trans (if_neg (by omega))
  case ldi | prn | push | pop | jmp | jeq | jne =>
    obtain ⟨a, ha, rfl⟩ := h
    exact withReg_named ha s _
  case mul | add | cmp =>
    obtain ⟨a, b, ha, hb, rfl⟩ := h
    exact withRegs_named ha hb s _

/-- Settles O15: each of the two completes, and the written register reads back as the ALU's result. -/
theorem aluResultsWrapModulo256 : Obligations.AluResultsWrapModulo256 := by
  intro s ra rb a b ha hb
  constructor
  · refine ⟨_, exec_of_completes ⟨a, b, ha, hb, rfl⟩, ?_, rfl, rfl⟩
    rw [State.advance_reg, State.reg_setReg_same, alu_add_toNat]
  · refine ⟨_, exec_of_completes ⟨a, b, ha, hb, rfl⟩, ?_, rfl, rfl⟩
    rw [State.advance_reg, State.reg_setReg_same, alu_mul_toNat]

theorem State.reset_reg (r : Reg) : State.reset.reg r = if r = .r7 then 0xF4 else 0 := by
  cases r <;> rfl

theorem Reg.index_lt (r : Reg) : r.index < 8 := by
  cases r <;> decide

/-- The byte of a register's number names that register (R44). -/
theorem regOf_index (r : Reg) : regOf (byteOf r.index) = some r := by
  have hr := r.index_lt
  rw [regOf_eq_some, byteOf_toNat]
  omega

theorem Reg.index_injective : Function.Injective Reg.index := fun q r h =>
  Option.some.inj (by rw [← regOf_index q, h, regOf_index])

theorem Reg.lt_eight_iff_exists_index (n : Nat) : n < 8 ↔ ∃ r : Reg, r.index = n := by
  constructor
  · intro hn
    cases h : regOf (byteOf n) with
    | none =>
      rw [regOf_eq_none, byteOf_toNat] at h
      omega
    | some r =>
      rw [regOf_eq_some, byteOf_toNat] at h
      exact ⟨r, by omega⟩
  · rintro ⟨r, rfl⟩
    exact r.index_lt

/-- Settles O44: the reset values register by register, and the numbering of the registers by 0 to 7. -/
theorem resetRegisters : Obligations.ResetRegisters :=
  ⟨State.reset_reg, fun _ => rfl, ⟨rfl, rfl, rfl, rfl, rfl, rfl, rfl, rfl⟩, Reg.lt_eight_iff_exists_index,
    fun _ _ h => Reg.index_injective h⟩

end Sys2Proof.Machine
end

section
/-! The two memory primitives: when a write answers, what reads return after it, and the obligation of 20_memory.md. -/

namespace Sys2Proof.Machine

/-- `MemWrite` answers exactly in the defined address space, and replaces the memory alone (R29, R30). -/
theorem State.memWrite_eq_some {s t : State} {a : Nat} {v : Byte} :
    s.memWrite a v = some t ↔ a ≤ 255 ∧ t = { s with mem := s.mem.write a v } := by
  unfold State.memWrite
  split
  case isTrue h => exact ⟨nofun, fun ⟨hle, _⟩ => absurd hle (Nat.not_le.mpr h)⟩
  case isFalse h => rw [Option.some_inj, eq_comm, and_iff_right (Nat.not_lt.mp h)]

/-- `MemRead` returns the value just written at its address (R37). -/
theorem State.memRead_memWrite_same {s t : State} {a : Nat} {v : Byte} (hm : s.mem.wf = true)
    (h : s.memWrite a v = some t) : t.memRead a = some v := by
  obtain ⟨ha, rfl⟩ := State.memWrite_eq_some.mp h
  rw [State.memRead_of_le _ ha, Memory.read_write_same hm]

/-- `MemRead` at any other address, in range or not, answers as before the write (R37). -/
theorem State.memRead_memWrite_other {s t : State} {a b : Nat} {v : Byte} (hb : b ≠ a)
    (h : s.memWrite a v = some t) : t.memRead b = s.memRead b := by
  obtain ⟨-, rfl⟩ := State.memWrite_eq_some.mp h
  unfold State.memRead
  rw [Memory.read_write_other _ _ hb]

/-- Settles O41: the range check of both primitives passes, and the write is the memory's own write. -/
theorem everyAddressReadsAndWrites : Obligations.EveryAddressReadsAndWrites := by
  intro s a v ha
  have hw : s.memWrite a v = some { s with mem := s.mem.write a v } := State.memWrite_eq_some.mpr ⟨ha, rfl⟩
  exact ⟨⟨_, s.memRead_of_le ha⟩, _, hw, fun hm => State.memRead_memWrite_same hm hw,
    fun _ hb => State.memRead_memWrite_other hb hw, rfl⟩

end Sys2Proof.Machine
end

section
/-! The opcode table as a list of rows, and the obligation of 30_encoding.md on the opcode map. -/

namespace Sys2Proof.Machine

theorem mem_allOpcodes (op : Opcode) : op ∈ allOpcodes := by
  cases op <;> decide

/-- The row of an opcode in R45's table holds its byte and no other. -/
theorem mem_opcodeRows {op : Opcode} {b : Byte} : (op, b) ∈ allOpcodes.map (fun o => (o, o.byte)) ↔ op.byte = b := by
  constructor
  · intro h
    obtain ⟨_, -, heq⟩ := List.mem_map.mp h
    obtain ⟨rfl, hb⟩ := Prod.mk.inj heq
    exact hb
  · rintro rfl
    exact List.mem_map_of_mem (mem_allOpcodes op)

/-- Settles O1: lookup and membership in the table both say that the opcode's byte is `b`; the table written out is the
list of the model's own rows. -/
theorem opcodeMapIsTheTable : Obligations.OpcodeMapIsTheTable := by
  constructor
  · intro b op
    exact opcodeOf_eq_some.trans mem_opcodeRows.symm
  · intro op
    cases op <;> rfl

end Sys2Proof.Machine
end

section
/-! Which byte raises DecodeError: the fetch does so exactly at a byte that is no opcode, no instruction does so after its
fetch, and the obligation of 40_dispatch_cycle.md. -/

namespace Sys2Proof.Machine

theorem opcodeOf_eq_none {b : Byte} : opcodeOf b = none ↔ ∀ op : Opcode, op.byte ≠ b := by
  simp only [Option.eq_none_iff_forall_ne_some, ne_eq, opcodeOf_eq_some]

/-- The fetch answers DecodeError exactly when the byte at pc is no opcode, and names that byte and pc (R55). -/
theorem fetch_eq_decodeError {s : State} {b : Byte} {p : Nat} :
    fetch s = .error (.decodeError b p) ↔
      s.pc ≤ 255 ∧ (∀ op : Opcode, op.byte ≠ s.mem.read s.pc) ∧ s.mem.read s.pc = b ∧ s.pc = p := by
  rcases fetch_cases s with ⟨hpc, hf⟩ | ⟨hpc, hnone, hf⟩ | ⟨op, hpc, hb, -, hf⟩ | ⟨op, bs, hpc, hb, -, -, hf⟩
  · simp [hf, Nat.not_le.mpr hpc]
  · simp [hf, hpc, opcodeOf_eq_none.mp hnone]
  · exact iff_of_false (by simp [hf]) fun ⟨_, hillegal, _⟩ => hillegal op hb
  · exact iff_of_false (by simp [hf]) fun ⟨_, hillegal, _⟩ => hillegal op hb

theorem step_of_fetch_error {s : State} {c : FaultCause} (hr : s.run = .running) (hf : fetch s = .error c) :
    step s = .next (s.enterFault c) := by
  simp only [step, hr, hf, raiseFault]

theorem step_of_fetch_ok {s : State} {i : Instr} (hr : s.run = .running) (hf : fetch s = .ok i) :
    step s = exec i s := by
  simp only [step, hr, hf]

/-- An instruction that completes halts the engine if it is HLT, and leaves RUN as it was otherwise (R23, R78). -/
theorem Completes.run_eq {i : Instr} {s t : State} (h : Completes i s t) :
    t.run = if i = .hlt then .halted else s.run := by
  cases i
  case hlt | ret =>
    subst h
    rfl
  case call =>
    obtain ⟨a, -, -, rfl⟩ := h
    rfl
  case ldi | prn | push | pop | jmp =>
    obtain ⟨a, -, rfl⟩ := h
    rfl
  case jeq | jne =>
    obtain ⟨a, -, rfl⟩ := h
    exact State.branch_run ..
  case mul | add | cmp =>
    obtain ⟨a, b, -, -, rfl⟩ := h
    rfl

/-- No instruction raises DecodeError after its fetch: its own faults are the two of `Faults`, and completing enters no
fault (R57, R75). -/
theorem exec_run_ne_decodeError {i : Instr} {s t : State} (hr : s.run = .running) (h : exec i s = .next t)
    (b : Byte) (p : Nat) : t.run ≠ .faulted (.decodeError b p) := by
  rcases exec_cases h with hc | ⟨c, ⟨f, -, rfl⟩ | ⟨ra, -, -, rfl⟩, rfl⟩
  · rw [hc.run_eq, hr]
    split <;> nofun
  · nofun
  · nofun

/-- A step that ends in DecodeError got it from its fetch. -/
theorem fetch_of_step_decodeError {s t : State} {b : Byte} {p : Nat} (h : step s = .next t)
    (ht : t.run = .faulted (.decodeError b p)) : fetch s = .error (.decodeError b p) := by
  obtain ⟨hr, ⟨c, hf, rfl⟩ | ⟨i, -, he⟩⟩ := step_next h
  · rw [State.enterFault_run] at ht
    rwa [RunState.faulted.inj ht] at hf
  · exact absurd ht (exec_run_ne_decodeError hr he b p)

/-- Settles O8: an illegal byte stops the step in its fetch; at a legal one DecodeError would have to come from the fetch,
which names illegal bytes only, and up to address 253 the longest instruction fits. -/
theorem illegalOpcodeRaisesDecodeError : Obligations.IllegalOpcodeRaisesDecodeError := by
  intro s hr hpc
  constructor
  · intro hillegal
    exact step_of_fetch_error hr (fetch_eq_decodeError.mpr ⟨hpc, hillegal, rfl, rfl⟩)
  · intro op hop
    constructor
    · intro t b p hstep ht
      obtain ⟨-, hillegal, -⟩ := fetch_eq_decodeError.mp (fetch_of_step_decodeError hstep ht)
      exact hillegal op hop
    · intro hpc'
      have hlen : op.length ≤ 3 := Sys2Proof.Laws.EncodeShape.opcode_length_le op
      exact step_of_fetch_ok hr (fetch_of_fits hop (by omega))

end Sys2Proof.Machine
end

section
/-! Decoding and encoding: what a successful decoding read, what an instruction's encoding is made of, and the
obligations of 30_encoding.md on the two. -/

namespace Sys2Proof

open Machine

@[simp] theorem Opcode.toInstr_opcode (op : Opcode) (b1 b2 : Byte) : (op.toInstr b1 b2).opcode = op := by
  cases op <;> rfl

/-- An opcode makes its instruction of the operand bytes its format has a place for, and keeps them (R43). -/
theorem Opcode.toInstr_operandBytes (op : Opcode) (b1 b2 : Byte) :
    (op.toInstr b1 b2).operandBytes = [b1, b2].take op.format.operandCount := by
  cases op <;> rfl

/-- An instruction is what its opcode makes of its operand bytes, whatever bytes follow them (R43, R58). -/
theorem Instr.toInstr_operandBytes_append (i : Instr) (rest : List Byte) :
    i.opcode.toInstr ((i.operandBytes ++ rest).getD 0 0) ((i.operandBytes ++ rest).getD 1 0) = i := by
  cases i <;> rfl

theorem Instr.operandBytes_length (i : Instr) : i.operandBytes.length = i.opcode.format.operandCount := by
  cases i <;> rfl

theorem Opcode.operandCount_le (op : Opcode) : op.format.operandCount ≤ 2 := by
  cases op <;> decide

/-- Everything a successful decoding says of its list: an opcode byte, then at least the operand bytes its format calls
for (R42, R43). -/
theorem decode_eq_ok {bs rest : List Byte} {i : Instr} :
    decode bs = .ok (i, rest) ↔ ∃ (op : Opcode) (tail : List Byte), bs = op.byte :: tail ∧
      op.format.operandCount ≤ tail.length ∧ i = op.toInstr (tail.getD 0 0) (tail.getD 1 0) ∧
      rest = tail.drop op.format.operandCount := by
  constructor
  · intro h
    unfold decode at h
    split at h
    · exact absurd h (by simp)
    · split at h
      · exact absurd h (by simp)
      · rename_i b0 tail _ op hop
        split at h
        · exact absurd h (by simp)
        · rename_i hlen
          obtain ⟨hi, hrest⟩ := Prod.mk.inj (Except.ok.inj h)
          exact ⟨op, tail, by rw [opcodeOf_eq_some.mp hop], Nat.not_lt.mp hlen, hi.symm, hrest.symm⟩
  · rintro ⟨op, tail, rfl, hlen, rfl, rfl⟩
    simp only [decode, opcodeOf_eq_some.mpr rfl, if_neg (Nat.not_lt.mpr hlen)]

/-- Settles O3: the encoding begins with the opcode's byte and its operand bytes are as many as the format calls for, so
the decoder takes exactly those. -/
theorem decodeOfEncode : Obligations.DecodeOfEncode := by
  intro i rest
  refine decode_eq_ok.mpr ⟨i.opcode, i.operandBytes ++ rest, rfl, ?_, (i.toInstr_operandBytes_append rest).symm, ?_⟩
  · rw [List.length_append, Instr.operandBytes_length]
    exact Nat.le_add_right ..
  · rw [← Instr.operandBytes_length, List.drop_left]

/-- Up to two bytes taken from a list that has them are the list's own first bytes. -/
theorem take_getD_pair {l : List Byte} {n : Nat} (hn : n ≤ 2) (hl : n ≤ l.length) :
    [l.getD 0 0, l.getD 1 0].take n = l.take n := by
  match n, l, hn, hl with
  | 0, _, _, _ => rfl
  | 1, _ :: _, _, _ => rfl
  | 2, _ :: _ :: _, _, _ => rfl

/-- Settles O4: the operand bytes of the decoded instruction are the bytes the format counts off, and the rest is
what is left of them. -/
theorem encodeOfDecode : Obligations.EncodeOfDecode := by
  intro bs i rest h
  obtain ⟨op, tail, rfl, hlen, rfl, rfl⟩ := decode_eq_ok.mp h
  rw [encode, List.cons_append, Opcode.toInstr_opcode, Opcode.toInstr_operandBytes,
    take_getD_pair op.operandCount_le hlen, List.take_append_drop]

/-- Settles O2: `decode` computes on each of the six words. -/
theorem writtenOutWordsDecode : Obligations.WrittenOutWordsDecode :=
  ⟨rfl, rfl, rfl, rfl, rfl, rfl⟩

theorem decode_illegal {b : Byte} (h : ∀ op : Opcode, op.byte ≠ b) (rest : List Byte) :
    decode (b :: rest) = .error (.illegalOpcode b) := by
  simp only [decode, opcodeOf_eq_none.mpr h]

@[simp] theorem byteOf_toNat_self (b : Byte) : byteOf b.toNat = b := by
  rw [byteOf, BitVec.ofNat_toNat, BitVec.setWidth_eq]

theorem isSome_opcodeOf {b : Byte} : (opcodeOf b).isSome = true ↔ ∃ op : Opcode, op.byte = b := by
  simp only [Option.isSome_iff_exists, opcodeOf_eq_some]

/-- The legal byte values are the 13 bytes of R45's table. -/
theorem legalBytes_perm :
    ((List.range 256).filter fun n => (opcodeOf (byteOf n)).isSome).Perm (allOpcodes.map fun op => op.byte.toNat) := by
  refine (List.perm_ext_iff_of_nodup (List.nodup_range.filter _) (by decide)).mpr fun n => ?_
  rw [List.mem_filter, List.mem_range, isSome_opcodeOf, List.mem_map]
  constructor
  · rintro ⟨hn, op, hop⟩
    exact ⟨op, mem_allOpcodes op, by rw [hop, byteOf_toNat, Nat.mod_eq_of_lt hn]⟩
  · rintro ⟨op, -, rfl⟩
    exact ⟨op.byte.isLt, op, (byteOf_toNat_self _).symm⟩

/-- Settles O5: a byte that is no opcode has no row to look up; of the 256 byte values 13 are legal, and the others are
the 243. -/
theorem illegalOpcodesAreRejected : Obligations.IllegalOpcodesAreRejected := by
  refine ⟨fun _ rest h => decode_illegal h rest, ?_⟩
  have hsum := List.length_eq_length_filter_add (l := List.range 256) fun n => (opcodeOf (byteOf n)).isSome
  rw [legalBytes_perm.length_eq, List.length_range, List.length_map] at hsum
  have hlegal : allOpcodes.length = 13 := rfl
  simp only [Option.not_isSome] at hsum
  omega

/-- Settles O6, opcode by opcode of R45's table. -/
theorem opcodeBitsShowTheStructure : Obligations.OpcodeBitsShowTheStructure := by
  intro op
  cases op <;> decide

end Sys2Proof
end

section
/-! The dispatch cycle: the fetch as the decoding of the bytes from pc upward, the fetches that fail beyond address
255, and when a step answers a next state. -/

namespace Sys2Proof.Machine

/-! ## The fetch as a decoding -/

theorem State.bytesFrom_length (s : State) (a : Nat) : (s.bytesFrom a).length = 256 - a := by
  simp [State.bytesFrom, Config.memSize]

theorem State.bytesFrom_getD (s : State) {a k : Nat} (h : a + k < 256) :
    (s.bytesFrom a).getD k 0 = s.mem.read (a + k) := by
  rw [List.getD_eq_getElem _ _ (by rw [State.bytesFrom_length]; omega)]
  simp [State.bytesFrom]

theorem State.bytesFrom_above (s : State) {a : Nat} (h : 255 < a) : s.bytesFrom a = [] :=
  List.eq_nil_of_length_eq_zero (by rw [State.bytesFrom_length]; omega)

theorem State.bytesFrom_cons (s : State) {a : Nat} (h : a ≤ 255) :
    s.bytesFrom a = s.mem.read a :: s.bytesFrom (a + 1) := by
  have hsize : Config.memSize - a = Config.memSize - (a + 1) + 1 := by simp only [Config.memSize]; omega
  simp only [State.bytesFrom, hsize, List.range_succ_eq_map, List.map_cons, List.map_map]
  simp [Function.comp_def, Nat.add_assoc, Nat.add_comm 1]

/-- The instruction an opcode makes depends on the operand bytes its format has a place for, and on no other. -/
theorem toInstr_congr {op : Opcode} {b1 b2 c1 c2 : Byte} (h1 : 1 ≤ op.format.operandCount → b1 = c1)
    (h2 : 2 ≤ op.format.operandCount → b2 = c2) : op.toInstr b1 b2 = op.toInstr c1 c2 := by
  cases op
  case hlt | ret => rfl
  case prn | push | pop | call | jmp | jeq | jne =>
    rw [h1 (by decide)]
    rfl
  case ldi | mul | add | cmp => rw [h1 (by decide), h2 (by decide)]

/-- The fetch answers an instruction exactly when its opcode's byte stands at pc and its bytes end below 256
(R54-R56). -/
theorem fetch_eq_ok {s : State} {i : Instr} :
    fetch s = .ok i ↔ ∃ op : Opcode, op.byte = s.mem.read s.pc ∧ s.pc + op.length ≤ 256 ∧
      i = op.toInstr (s.mem.read (s.pc + 1)) (s.mem.read (s.pc + 2)) := by
  constructor
  · intro h
    obtain ⟨-, hbyte, hlen⟩ := fetch_ok h
    exact ⟨i.opcode, hbyte.symm, hlen, Except.ok.inj (h.symm.trans (fetch_of_fits hbyte.symm hlen))⟩
  · rintro ⟨op, hbyte, hlen, rfl⟩
    exact fetch_of_fits hbyte hlen

/-- The instruction of an opcode at pc that fits below 256, from the listed bytes as from memory. -/
theorem toInstr_bytesFrom (s : State) {op : Opcode} (h : s.pc + op.length ≤ 256) :
    op.toInstr ((s.bytesFrom (s.pc + 1)).getD 0 0) ((s.bytesFrom (s.pc + 1)).getD 1 0) =
      op.toInstr (s.mem.read (s.pc + 1)) (s.mem.read (s.pc + 2)) := by
  unfold Opcode.length at h
  exact toInstr_congr (fun _ => s.bytesFrom_getD (by omega)) (fun _ => s.bytesFrom_getD (by omega))

/-- The fetch answers the instruction the bytes from pc to 255 decode to (R54-R56; D3). -/
theorem fetch_eq_ok_iff_decode {s : State} {i : Instr} :
    fetch s = .ok i ↔ ∃ rest, decode (s.bytesFrom s.pc) = .ok (i, rest) := by
  rw [fetch_eq_ok]
  constructor
  · rintro ⟨op, hbyte, hlen, rfl⟩
    have hle : 1 + op.format.operandCount ≤ 256 - s.pc := by unfold Opcode.length at hlen; omega
    rw [s.bytesFrom_cons (by omega), ← hbyte, ← toInstr_bytesFrom s hlen]
    exact ⟨_, decode_eq_ok.mpr ⟨op, _, rfl, by rw [State.bytesFrom_length]; omega, rfl, rfl⟩⟩
  · rintro ⟨rest, h⟩
    obtain ⟨op, tail, hbytes, hlen, rfl, -⟩ := decode_eq_ok.mp h
    by_cases hpc : s.pc ≤ 255
    · rw [s.bytesFrom_cons hpc] at hbytes
      obtain ⟨hbyte, rfl⟩ := List.cons.inj hbytes
      rw [State.bytesFrom_length] at hlen
      have hfits : s.pc + op.length ≤ 256 := by unfold Opcode.length; omega
      exact ⟨op, hbyte.symm, hfits, toInstr_bytesFrom s hfits⟩
    · rw [s.bytesFrom_above (by omega)] at hbytes
      exact absurd hbytes (by simp)

/-- Settles O7: the decoded instruction is the fetched one. -/
theorem stepRunsDecodedInstruction : Obligations.StepRunsDecodedInstruction :=
  fun _ _ rest hr h => step_of_fetch_ok hr (fetch_eq_ok_iff_decode.mpr ⟨rest, h⟩)

/-! ## Fetches beyond 255 -/

theorem fetch_above {s : State} (h : 255 < s.pc) : fetch s = .error (.addressError s.pc s.pc) := by
  simp only [fetch, State.memRead_of_gt s h]

/-- An instruction at pc that does not end below 256 makes the fetch name address 256 (R56, R84). -/
theorem fetch_of_not_fits {s : State} {op : Opcode} (hpc : s.pc ≤ 255) (hbyte : op.byte = s.mem.read s.pc)
    (h : 256 < s.pc + op.length) : fetch s = .error (.addressError 256 s.pc) := by
  have hop := opcodeOf_eq_some.mpr hbyte
  rcases fetch_cases s with ⟨h', -⟩ | ⟨-, hnone, -⟩ | ⟨_, -, -, -, hf⟩ | ⟨op', _, -, hbyte', hlen, -, -⟩
  · omega
  · rw [hnone] at hop
    exact absurd hop (by simp)
  · exact hf
  · rw [opcodeOf_eq_some.mpr hbyte'] at hop
    rw [Option.some.inj hop] at hlen
    omega

/-- Settles O9: both faults come from the fetch. -/
theorem fetchBeyondMemoryRaisesAddressError : Obligations.FetchBeyondMemoryRaisesAddressError :=
  fun _ hr => ⟨fun h => step_of_fetch_error hr (fetch_above h),
    fun _ hpc hbyte h => step_of_fetch_error hr (fetch_of_not_fits hpc hbyte h)⟩

/-! ## When an instruction completes, and when it faults -/

/-- The check of one register byte goes on with a register, or raises a fault that the byte and pc alone decide. -/
theorem withReg_total (f : Byte) (p : Nat) :
    (∃ r, Names f r) ∨ (8 ≤ f.toNat ∧
      ∀ (u : State) (k : Reg → Result), u.pc = p → withReg f u k = .next (u.enterFault (.registerIndexError f p))) := by
  cases h : regOf f with
  | some r => exact .inl ⟨r, regOf_eq_some.mp h⟩
  | none =>
    have hf := regOf_eq_none.mp h
    exact .inr ⟨hf, fun u k hu => hu ▸ withReg_bad hf u k⟩

/-- Every instruction in every state completes, or takes a fault that its operand bytes and pc alone decide
(R57, R75). -/
theorem completes_or_faults (i : Instr) (s : State) :
    (∃ t, Completes i s t) ∨ ∃ c, ∀ u : State, u.pc = s.pc → exec i u = .next (u.enterFault c) := by
  cases i
  case hlt | ret => exact .inl ⟨_, rfl⟩
  case call ra =>
    rcases withReg_total ra s.pc with ⟨a, ha⟩ | ⟨-, hbad⟩
    · by_cases hpc : s.pc ≤ 253
      · exact .inl ⟨_, a, ha, hpc, rfl⟩
      · refine .inr ⟨.addressError (s.pc + 2) s.pc, fun u hu => ?_⟩
        rw [← hu]
        exact (withReg_named ha u _).trans (if_pos (by omega))
    · exact .inr ⟨_, fun u hu => hbad u _ hu⟩
  case ldi ra _ | prn ra | push ra | pop ra | jmp ra | jeq ra | jne ra =>
    rcases withReg_total ra s.pc with ⟨a, ha⟩ | ⟨-, hbad⟩
    · exact .inl ⟨_, a, ha, rfl⟩
    · exact .inr ⟨_, fun u hu => hbad u _ hu⟩
  case mul ra rb | add ra rb | cmp ra rb =>
    rcases withReg_total ra s.pc with ⟨a, ha⟩ | ⟨-, hbad⟩
    · rcases withReg_total rb s.pc with ⟨b, hb⟩ | ⟨-, hbad⟩
      · exact .inl ⟨_, a, b, ha, hb, rfl⟩
      · exact .inr ⟨_, fun u hu => (withReg_named ha u _).trans (hbad u _ hu)⟩
    · exact .inr ⟨_, fun u hu => hbad u _ hu⟩

/-- Every instruction answers a next state in every state (R108). -/
theorem exec_total (i : Instr) (s : State) : ∃ t, exec i s = .next t := by
  rcases completes_or_faults i s with ⟨t, ht⟩ | ⟨c, hc⟩
  · exact ⟨t, exec_of_completes ht⟩
  · exact ⟨_, hc s rfl⟩

theorem exists_names_iff {f : Byte} : (∃ r, Names f r) ↔ namesRegister f = true := by
  rw [namesRegister, decide_eq_true_eq, ← Nat.lt_succ_iff, Reg.lt_eight_iff_exists_index]
  exact exists_congr fun _ => eq_comm

/-- An instruction completes exactly when its register bytes name registers and, for CALL, the return address is an
address (R57, R75). -/
theorem exists_completes_iff {i : Instr} {s : State} :
    (∃ t, Completes i s t) ↔ i.wellFormed = true ∧ ∀ ra, i = .call ra → s.pc ≤ 253 := by
  cases i <;> simp [Completes, Instr.wellFormed, ← exists_names_iff]

/-- From a running state, what `exec` answers is safe exactly when the instruction completed. -/
theorem safe_iff_completes {i : Instr} {s t : State} (hr : s.run = .running) (h : exec i s = .next t) :
    t.safe ↔ Completes i s t := by
  constructor
  · intro hsafe
    rcases exec_cases h with hc | ⟨c, -, rfl⟩
    · exact hc
    · exact absurd rfl (hsafe c)
  · intro hc c
    rw [hc.run_eq, hr]
    split <;> nofun

/-! ## The step -/

theorem readBytes_congr {s u : State} (hmem : u.mem = s.mem) (a n : Nat) : readBytes u a n = readBytes s a n := by
  induction n generalizing a with
  | zero => rfl
  | succ n ih => simp only [readBytes, State.memRead, hmem, ih]

/-- The fetch reads pc and memory, and nothing else (R54-R56). -/
theorem fetch_congr {s u : State} (hpc : u.pc = s.pc) (hmem : u.mem = s.mem) : fetch u = fetch s := by
  simp only [fetch, State.memRead, hpc, hmem, readBytes_congr hmem]

/-- Everything a step that answers a next state has done: the instruction at pc completed, or RUN alone changed, for a
fault that pc and memory alone decide. -/
theorem step_completes_or_faults {s t : State} (h : step s = .next t) :
    s.run = .running ∧ ((∃ i, fetch s = .ok i ∧ Completes i s t) ∨ ∃ c, t = s.enterFault c ∧
      ∀ u : State, u.run = .running → u.pc = s.pc → u.mem = s.mem → step u = .next (u.enterFault c)) := by
  obtain ⟨hr, ⟨c, hf, rfl⟩ | ⟨i, hf, he⟩⟩ := step_next h
  · exact ⟨hr, .inr ⟨c, rfl, fun u hu hpc hmem => step_of_fetch_error hu ((fetch_congr hpc hmem).trans hf)⟩⟩
  · refine ⟨hr, ?_⟩
    rcases completes_or_faults i s with ⟨t', ht'⟩ | ⟨c, hc⟩
    · rw [exec_of_completes ht'] at he
      exact .inl ⟨i, hf, Host.Outcome.next.inj he ▸ ht'⟩
    · rw [hc s rfl] at he
      exact .inr ⟨c, (Host.Outcome.next.inj he).symm, fun u hu hpc hmem =>
        (step_of_fetch_ok hu ((fetch_congr hpc hmem).trans hf)).trans (hc u hpc)⟩

/-- A running state with the same pc and memory steps as its own run of the same instruction. -/
theorem step_of_completes {i : Instr} {s u u' : State} (hf : fetch s = .ok i) (hr : u.run = .running)
    (hpc : u.pc = s.pc) (hmem : u.mem = s.mem) (hc : Completes i u u') : step u = .next u' :=
  (step_of_fetch_ok hr ((fetch_congr hpc hmem).trans hf)).trans (exec_of_completes hc)

/-- The byte at pc tells which opcode the fetched instruction has (R47). -/
theorem memRead_pc_iff {s : State} {i : Instr} (hf : fetch s = .ok i) (op : Opcode) :
    s.memRead s.pc = some op.byte ↔ i.opcode = op := by
  obtain ⟨hpc, hbyte, -⟩ := fetch_ok hf
  rw [s.memRead_of_le hpc, hbyte, Option.some_inj]
  exact ⟨fun h => Option.some.inj ((opcodeOf_eq_some.mpr h).symm.trans (opcodeOf_eq_some.mpr rfl)),
    fun h => congrArg _ h⟩

/-- HLT is fetched alone, at every address of memory (R54-R56; D3). -/
theorem fetch_hlt {s : State} (hpc : s.pc ≤ 255) (hbyte : s.mem.read s.pc = Opcode.hlt.byte) : fetch s = .ok .hlt :=
  fetch_of_fits (op := .hlt) hbyte.symm (Nat.succ_le_succ hpc)

theorem opcode_eq_hlt {i : Instr} : i.opcode = .hlt ↔ i = .hlt := by
  cases i <;> simp [Instr.opcode]

/-- Settles O10: each meaning begins with the check of its register bytes. -/
theorem badRegisterByteRaisesRegisterIndexError : Obligations.BadRegisterByteRaisesRegisterIndexError := by
  intro s f hf
  have one (k) : withReg f s k = .next (s.enterFault (.registerIndexError f s.pc)) := withReg_bad hf s k
  have first (x k) : withRegs f x s k = .next (s.enterFault (.registerIndexError f s.pc)) :=
    withRegs_bad_first hf x s k
  constructor
  · intro x
    simp only [List.forall_mem_cons]
    exact ⟨one _, first x _, first x _, first x _, one _, one _, one _, one _, one _, one _, one _, nofun⟩
  · intro ra hra
    obtain ⟨a, ha⟩ := exists_names_iff.mpr (decide_eq_true hra)
    have second (k) : withRegs ra f s k = .next (s.enterFault (.registerIndexError f s.pc)) :=
      withRegs_bad_second ha hf s k
    simp only [List.forall_mem_cons]
    exact ⟨second _, second _, second _, nofun⟩

/-- Settles O11: a completed instruction leaves RUN running or halted, so the step is one that changed RUN alone. -/
theorem faultsArePrecise : Obligations.FaultsArePrecise := by
  intro s t c h ht
  obtain ⟨hr, ⟨i, -, hc⟩ | ⟨c', rfl, -⟩⟩ := step_completes_or_faults h
  · rw [hc.run_eq, hr] at ht
    split at ht <;> cases ht
  · rw [State.enterFault_run] at ht
    rw [RunState.faulted.inj ht]
    rfl

/-- Settles O12: a running step either takes a fault of the fetch or runs an instruction, and both answer a next
state. -/
theorem stepIsEnabledExactlyWhenRunning : Obligations.StepIsEnabledExactlyWhenRunning := by
  intro s
  refine ⟨⟨fun ⟨_, h⟩ => (step_next h).1, fun hr => ?_⟩, fun hr => by simp only [step, hr],
    fun c hr => by simp only [step, hr]⟩
  cases hf : fetch s with
  | error c => exact ⟨_, step_of_fetch_error hr hf⟩
  | ok i => rw [step_of_fetch_ok hr hf]; exact exec_total i s

/-- Settles O13: HLT always fits, so its byte at pc is fetched and halts; a fault or another instruction does not. -/
theorem onlyHltHalts : Obligations.OnlyHltHalts := by
  intro s t h
  obtain ⟨hr, ⟨i, hf, hc⟩ | ⟨c, rfl, -⟩⟩ := step_completes_or_faults h
  · refine Iff.trans ?_ ((memRead_pc_iff hf .hlt).trans opcode_eq_hlt).symm
    rw [hc.run_eq, hr]
    simp
  · refine iff_of_false nofun fun hbyte => ?_
    obtain ⟨hpc, hbyte⟩ := State.memRead_eq_some hbyte
    rw [step_of_fetch_ok hr (fetch_hlt hpc hbyte)] at h
    exact absurd (congrArg State.run (Host.Outcome.next.inj h)) nofun

/-- Settles O14: the step is safe exactly when the fetched instruction completes. -/
theorem stepIsSafeExactlyWhen : Obligations.StepIsSafeExactlyWhen := by
  intro s t hr h
  constructor
  · intro hsafe
    obtain ⟨-, ⟨i, hf, hc⟩ | ⟨c, rfl, -⟩⟩ := step_completes_or_faults h
    · obtain ⟨rest, hdecode⟩ := fetch_eq_ok_iff_decode.mp hf
      exact ⟨i, rest, hdecode, exists_completes_iff.mp ⟨t, hc⟩⟩
    · exact absurd rfl (hsafe c)
  · rintro ⟨i, rest, hdecode, hwf⟩
    obtain ⟨t', hc⟩ := exists_completes_iff.mpr hwf
    have he : exec i s = .next t := (stepRunsDecodedInstruction s i rest hr hdecode).symm.trans h
    obtain rfl := Host.Outcome.next.inj ((exec_of_completes hc).symm.trans he)
    exact (safe_iff_completes hr he).mpr hc

end Sys2Proof.Machine
end

section
/-! What one instruction does: the results of the load-immediate, compare, branch, output and halt instructions, and the
obligations of 42_compare_branch.md and 44_control_io.md. -/

namespace Sys2Proof.Machine

/-- Settles O16: the written register reads back as the immediate. -/
theorem ldiResult : Obligations.LdiResult :=
  fun s _ imm a ha => ⟨_, exec_of_completes ⟨a, ha, rfl⟩, s.reg_setReg_same a imm, rfl, rfl⟩

/-- Settles O18: the flags are the three comparisons of `compareFlags_eq`. -/
theorem cmpResult : Obligations.CmpResult := by
  intro s ra rb a b ha hb
  refine ⟨_, exec_of_completes ⟨a, b, ha, hb, rfl⟩, ?_, ?_, ?_, rfl, rfl⟩ <;>
    rw [State.advance_fl, State.setFlags_fl, compareFlags_eq, decide_eq_true_iff]

theorem State.branch_not_pc (s : State) (c : Bool) (t : Byte) :
    (s.branch (!c) t).pc = if c = true then s.pc + 2 else t.toNat := by
  cases c <;> rfl

/-- Settles O20: JMP always jumps, and the other two branch on E. -/
theorem jumpResults : Obligations.JumpResults := by
  intro s ra a ha
  refine ⟨⟨_, exec_of_completes ⟨a, ha, rfl⟩, rfl, rfl⟩,
    ⟨_, exec_of_completes ⟨a, ha, rfl⟩, State.branch_pc .., State.branch_run ..⟩,
    ⟨_, exec_of_completes ⟨a, ha, rfl⟩, ?_, State.branch_run ..⟩⟩
  rw [State.branch_not_pc]
  cases s.fl.e <;> rfl

/-- Settles O21: the register check is the same, and a taken branch is the jump. -/
theorem takenConditionalIsJmp : Obligations.TakenConditionalIsJmp := by
  intro s ra
  constructor
  · intro he
    simp only [exec, execJeq, execJmp, he, State.branch]
  · intro he
    simp only [exec, execJne, execJmp, he, Bool.not_false, State.branch]

/-- Settles O32: PRN emits the register its byte names. -/
theorem prnResult : Obligations.PrnResult :=
  fun _ _ a ha => ⟨_, exec_of_completes ⟨a, ha, rfl⟩, rfl, rfl, rfl⟩

/-- Settles O33: HLT has no operand to check. -/
theorem hltResult : Obligations.HltResult := fun _ => exec_of_completes rfl

end Sys2Proof.Machine
end

section
/-! The stack: what a push stores and what a pop gives back, and the obligations of 43_stack_call.md. -/

namespace Sys2Proof.Machine

@[simp] theorem State.spDec_reg_r7 (s : State) : s.spDec.reg .r7 = byteOf ((s.reg .r7).toNat + 255) := s.spDec_sp

@[simp] theorem State.spInc_reg_r7 (s : State) : s.spInc.reg .r7 = byteOf ((s.reg .r7).toNat + 1) := s.spInc_sp

/-- The byte a push stores stands at the decremented SP (R71). -/
theorem State.read_push {s : State} (hm : s.mem.wf = true) (v : Byte) :
    (s.push v).mem.read (s.spDec.reg .r7).toNat = v :=
  Memory.read_write_same hm _ v

/-- Incrementing the decremented SP gives SP back, also where it wraps (R71, R72; D5). -/
theorem byteOf_spDec_add_one (s : State) : byteOf ((s.spDec.reg .r7).toNat + 1) = s.reg .r7 := by
  apply BitVec.eq_of_toNat_eq
  have h := (s.reg .r7).isLt
  rw [State.spDec_reg_r7, byteOf_toNat, byteOf_toNat]
  omega

/-- Settles O23: SP is decremented first, so the stored register is read from the state after it. -/
theorem pushResult : Obligations.PushResult := by
  intro s ra a ha
  refine ⟨_, exec_of_completes ⟨a, ha, rfl⟩, ?_, fun hm => ?_, rfl, rfl⟩
  · rw [State.advance_reg, State.push_reg, State.spDec_reg_r7, byteOf_toNat]
  · rw [State.advance_reg, State.advance_mem, State.push_reg, State.read_push hm]
    split
    · rename_i h
      rw [h]
    · rename_i h
      exact s.spDec_reg_other h

/-- Settles O24: SP is incremented after the popped byte is written, so with R7 named it is that byte that is
incremented. -/
theorem popResult : Obligations.PopResult := by
  intro s ra a ha
  refine ⟨_, exec_of_completes ⟨a, ha, rfl⟩, fun h => ⟨?_, ?_⟩, fun h => ?_, rfl, rfl⟩
  · rw [State.advance_reg, State.spInc_reg_other _ h, State.reg_setReg_same]
    rfl
  · rw [State.advance_reg, State.spInc_reg_r7, State.reg_setReg_other _ _ h.symm, byteOf_toNat]
  · rw [State.advance_reg, State.spInc_reg_r7, h, State.reg_setReg_same, byteOf_toNat]
    rfl

/-- Settles O25: the return address fits a byte, and the target is read after the push. -/
theorem callResult : Obligations.CallResult := by
  intro s ra a ha hpc
  refine ⟨_, exec_of_completes ⟨a, ha, hpc, rfl⟩, ?_, fun hm => ?_, ?_, rfl⟩
  · rw [State.jump_reg, State.push_reg, State.spDec_reg_r7, byteOf_toNat]
  · rw [State.jump_reg, State.jump_mem, State.push_reg, State.read_push hm, byteOf_toNat]
    omega
  · rw [State.jump_pc, State.jump_reg]
    split
    · rename_i h
      rw [h]
    · rename_i h
      rw [State.push_reg, State.spDec_reg_other _ h]

/-- Settles O26: the register is named, so the check of the return address decides. -/
theorem callWithoutReturnAddressFaults : Obligations.CallWithoutReturnAddressFaults :=
  fun s _ _ ha hpc => (withReg_named ha s _).trans (if_pos (by omega))

/-- Settles O27: RET jumps to the byte on top of the stack. -/
theorem retResult : Obligations.RetResult := by
  intro s
  refine ⟨_, exec_of_completes rfl, rfl, ?_, rfl⟩
  rw [State.jump_reg, State.spInc_reg_r7, byteOf_toNat]

/-- The state an instruction leaves when it completes is the one `exec` answers. -/
theorem Completes.eq_of_exec {i : Instr} {s t t' : State} (hc : Completes i s t') (h : exec i s = .next t) : t = t' :=
  Host.Outcome.next.inj (h.symm.trans (exec_of_completes hc))

/-- Settles O30: the pop reads the byte the push stored and increments the SP the push decremented. -/
theorem pushThenPopRoundTrips : Obligations.PushThenPopRoundTrips := by
  intro s t u ra rb a b hm ha hb ha7 hb7 hpush hpop
  have ht : t = (s.push (s.spDec.reg a)).advance 2 := Completes.eq_of_exec (i := .push ra) ⟨a, ha, rfl⟩ hpush
  have hu : u = (t.setReg b t.top).spInc.advance 2 := Completes.eq_of_exec (i := .pop rb) ⟨b, hb, rfl⟩ hpop
  have hsp : t.reg .r7 = s.spDec.reg .r7 := by rw [ht, State.advance_reg, State.push_reg]
  have htop : t.top = s.reg a := by
    rw [State.top, State.sp, hsp, ht, State.advance_mem, State.read_push hm, State.spDec_reg_other _ ha7]
  rw [hu]
  constructor
  · rw [State.advance_reg, State.spInc_reg_other _ hb7, State.reg_setReg_same, htop]
  · rw [State.advance_reg, State.spInc_reg_r7, State.reg_setReg_other _ _ hb7.symm, hsp, byteOf_spDec_add_one]

/-- Settles O31: the byte at SP is the return address CALL stored, and RET increments the SP CALL decremented. -/
theorem callThenRetReturns : Obligations.CallThenRetReturns := by
  intro s t u v ra a hm ha hpc hcall hsp hmem hret
  have ht : t = (s.push (byteOf (s.pc + 2))).jump ((s.push (byteOf (s.pc + 2))).reg a) :=
    Completes.eq_of_exec (i := .call ra) ⟨a, ha, hpc, rfl⟩ hcall
  have hv : v = u.spInc.jump u.top := Completes.eq_of_exec (i := .ret) rfl hret
  have htsp : t.reg .r7 = s.spDec.reg .r7 := by rw [ht, State.jump_reg, State.push_reg]
  have htop : u.top = byteOf (s.pc + 2) := by
    rw [State.top, State.sp, hmem, htsp, ht, State.jump_mem, State.read_push hm]
  rw [hv]
  refine ⟨?_, ?_, fun r hr => ?_⟩
  · rw [State.jump_pc, htop, byteOf_toNat]
    omega
  · rw [State.jump_reg, State.spInc_reg_r7, hsp, htsp, byteOf_spDec_add_one]
  · rw [State.jump_reg, State.spInc_reg_other _ hr]

end Sys2Proof.Machine
end

section
/-! What an instruction leaves unchanged: the registers outside R12's table, and the flags, OUT and memory outside the
opcodes that write them; the frames of the instruction families, and the obligation on the next pc. -/

namespace Sys2Proof.Machine

/-- R12's table: the registers an instruction may write. -/
def WritesReg (i : Instr) (r : Reg) : Prop :=
  match i with
  | .ldi ra _ | .add ra _ | .mul ra _ => Names ra r
  | .pop ra => Names ra r ∨ r = .r7
  | .push _ | .call _ | .ret => r = .r7
  | .hlt | .prn _ | .cmp _ _ | .jmp _ | .jeq _ | .jne _ => False

/-- A completed instruction keeps every register its row does not list (R12). -/
theorem Completes.reg_eq {i : Instr} {s t : State} {r : Reg} (h : Completes i s t) (hr : ¬ WritesReg i r) :
    t.reg r = s.reg r := by
  cases i
  case hlt =>
    subst h
    rfl
  case ret =>
    subst h
    exact s.spInc_reg_other hr
  case prn | jmp =>
    obtain ⟨a, -, rfl⟩ := h
    rfl
  case jeq | jne =>
    obtain ⟨a, -, rfl⟩ := h
    exact State.branch_reg ..
  case cmp =>
    obtain ⟨a, b, -, -, rfl⟩ := h
    rfl
  case ldi =>
    obtain ⟨a, ha, rfl⟩ := h
    exact s.reg_setReg_other _ fun e => hr (e ▸ ha)
  case mul | add =>
    obtain ⟨a, b, ha, -, rfl⟩ := h
    exact s.reg_setReg_other _ fun e => hr (e ▸ ha)
  case push =>
    obtain ⟨a, -, rfl⟩ := h
    exact s.spDec_reg_other hr
  case call =>
    obtain ⟨a, -, -, rfl⟩ := h
    exact s.spDec_reg_other hr
  case pop =>
    obtain ⟨a, ha, rfl⟩ := h
    obtain ⟨hname, hr7⟩ := not_or.mp hr
    exact (State.spInc_reg_other _ hr7).trans (s.reg_setReg_other _ fun e => hname (e ▸ ha))

/-- What an instruction with opcode `op` that takes `s` to `t` leaves unchanged beside the registers: FL but for CMP
(R21), OUT but for PRN (R24), memory but for PUSH and CALL (R31), which write at the decremented SP alone (R71). -/
structure Frame (op : Opcode) (s t : State) : Prop where
  fl_eq : op ≠ .cmp → t.fl = s.fl
  out_eq : op ≠ .prn → t.out = s.out
  mem_eq : op ≠ .push → op ≠ .call → t.mem = s.mem
  read_eq : ∀ a, a ≠ s.pushAddr → t.mem.read a = s.mem.read a

theorem State.enterFault_frame (op : Opcode) (s : State) (c : FaultCause) : Frame op s (s.enterFault c) :=
  ⟨fun _ => rfl, fun _ => rfl, fun _ _ => rfl, fun _ _ => rfl⟩

theorem Completes.frame {i : Instr} {s t : State} (h : Completes i s t) : Frame i.opcode s t := by
  cases i
  case hlt | ret =>
    subst h
    exact ⟨fun _ => rfl, fun _ => rfl, fun _ _ => rfl, fun _ _ => rfl⟩
  case ldi | pop | jmp =>
    obtain ⟨a, -, rfl⟩ := h
    exact ⟨fun _ => rfl, fun _ => rfl, fun _ _ => rfl, fun _ _ => rfl⟩
  case jeq | jne =>
    obtain ⟨a, -, rfl⟩ := h
    exact ⟨fun _ => State.branch_fl .., fun _ => State.branch_out .., fun _ _ => State.branch_mem ..,
      fun _ _ => by rw [State.branch_mem]⟩
  case mul | add =>
    obtain ⟨a, b, -, -, rfl⟩ := h
    exact ⟨fun _ => rfl, fun _ => rfl, fun _ _ => rfl, fun _ _ => rfl⟩
  case cmp =>
    obtain ⟨a, b, -, -, rfl⟩ := h
    exact ⟨fun hop => absurd rfl hop, fun _ => rfl, fun _ _ => rfl, fun _ _ => rfl⟩
  case prn =>
    obtain ⟨a, -, rfl⟩ := h
    exact ⟨fun _ => rfl, fun hop => absurd rfl hop, fun _ _ => rfl, fun _ _ => rfl⟩
  case push =>
    obtain ⟨a, -, rfl⟩ := h
    exact ⟨fun _ => rfl, fun _ => rfl, fun hop _ => absurd rfl hop, fun _ hb => s.mem.read_write_other _ hb⟩
  case call =>
    obtain ⟨a, -, -, rfl⟩ := h
    exact ⟨fun _ => rfl, fun _ => rfl, fun _ hop => absurd rfl hop, fun _ hb => s.mem.read_write_other _ hb⟩

/-! ## The same of `exec`, faulting forms included -/

theorem exec_reg_eq {i : Instr} {s t : State} {r : Reg} (h : exec i s = .next t) (hr : ¬ WritesReg i r) :
    t.reg r = s.reg r := by
  rcases exec_cases h with hc | ⟨c, -, rfl⟩
  · exact hc.reg_eq hr
  · rfl

theorem exec_frame {i : Instr} {s t : State} (h : exec i s = .next t) : Frame i.opcode s t := by
  rcases exec_cases h with hc | ⟨c, -, rfl⟩
  · exact hc.frame
  · exact s.enterFault_frame _ c

/-- But for HLT, an instruction keeps RUN or takes a fault. -/
theorem exec_run {i : Instr} {s t : State} (h : exec i s = .next t) (hhlt : i ≠ .hlt) :
    t.run = s.run ∨ ∃ c, Faults i s c ∧ t = s.enterFault c := by
  rcases exec_cases h with hc | hfault
  · exact .inl (hc.run_eq.trans (if_neg hhlt))
  · exact .inr hfault

/-- But for HLT and CALL, an instruction keeps RUN or takes the fault of a register byte (R57). -/
theorem exec_run_or_badRegister {i : Instr} {s t : State} (h : exec i s = .next t) (hhlt : i ≠ .hlt)
    (hcall : i.opcode ≠ .call) :
    t.run = s.run ∨ ∃ f : Byte, 8 ≤ f.toNat ∧ t = { s with run := .faulted (.registerIndexError f s.pc) } := by
  rcases exec_run h hhlt with hrun | ⟨c, ⟨f, hf, rfl⟩ | ⟨ra, rfl, -, -⟩, rfl⟩
  · exact .inl hrun
  · exact .inr ⟨f, hf, rfl⟩
  · exact absurd rfl hcall

/-- Settles O34: a register that differs is one the table lists. -/
theorem registerWritesByInstruction : Obligations.RegisterWritesByInstruction := by
  intro i s t r h hne
  have hwrites : WritesReg i r := by_contra fun hr => hne (exec_reg_eq h hr)
  cases i <;> exact hwrites

/-- Settles O17: none of the three is an opcode that writes flags, OUT or memory, and `ra` names their one register. -/
theorem aluAndLdiFrame : Obligations.AluAndLdiFrame := by
  intro s t ra x i hi h
  have hframe := exec_frame h
  simp only [List.mem_cons, List.not_mem_nil, or_false] at hi
  rcases hi with rfl | rfl | rfl <;>
    exact ⟨fun r hr => exec_reg_eq h hr, hframe.fl_eq nofun, hframe.out_eq nofun,
      fun a => congrArg (Memory.read · a) (hframe.mem_eq nofun nofun), exec_run_or_badRegister h nofun nofun⟩

/-- Settles O22: the six write no register and no memory, and CMP, PRN and HLT are the exceptions the frame names. -/
theorem compareBranchOutputHaltFrame : Obligations.CompareBranchOutputHaltFrame := by
  intro s t ra x i hi h
  have hframe := exec_frame h
  have hkind : (∀ r, ¬ WritesReg i r) ∧ (i ≠ .cmp ra x → i.opcode ≠ .cmp) ∧ (i ≠ .prn ra → i.opcode ≠ .prn) ∧
      i.opcode ≠ .push ∧ i.opcode ≠ .call := by
    simp only [List.mem_cons, List.not_mem_nil, or_false] at hi
    rcases hi with rfl | rfl | rfl | rfl | rfl | rfl <;> simp [WritesReg, Instr.opcode]
  obtain ⟨hregs, hcmp, hprn, hpush, hcall⟩ := hkind
  exact ⟨fun r => exec_reg_eq h (hregs r), fun a => congrArg (Memory.read · a) (hframe.mem_eq hpush hcall),
    fun hne => hframe.fl_eq (hcmp hne), fun hne => hframe.out_eq (hprn hne),
    fun hne => exec_run_or_badRegister h hne hcall⟩

/-- Settles O28: both store at the push's address alone, and SP is the one register in their rows. -/
theorem pushAndCallFrame : Obligations.PushAndCallFrame := by
  intro s t ra i hi h
  have hframe := exec_frame h
  have hrun : i ≠ .hlt → t.run = s.run ∨ ∃ c, t = { s with run := .faulted c } := fun hhlt =>
    (exec_run h hhlt).imp_right fun ⟨c, _, ht⟩ => ⟨c, ht⟩
  simp only [List.mem_cons, List.not_mem_nil, or_false] at hi
  rcases hi with rfl | rfl <;>
    exact ⟨fun r hr => exec_reg_eq h hr, hframe.fl_eq nofun, hframe.out_eq nofun,
      fun a ha b hb => hframe.read_eq b (ha ▸ hb), hrun nofun⟩

/-- Settles O29: neither writes flags, OUT or memory, and RET has no register byte to fault on. -/
theorem popAndRetFrame : Obligations.PopAndRetFrame := by
  intro s t
  constructor
  · intro ra h
    have hframe := exec_frame h
    exact ⟨fun r hr7 hname => exec_reg_eq h (not_or.mpr ⟨hname, hr7⟩), hframe.fl_eq nofun, hframe.out_eq nofun,
      fun a => congrArg (Memory.read · a) (hframe.mem_eq nofun nofun), exec_run_or_badRegister h nofun nofun⟩
  · intro h
    obtain rfl : t = s.spInc.jump s.top := Completes.eq_of_exec (i := .ret) rfl h
    exact ⟨fun r hr => s.spInc_reg_other hr, rfl, rfl, fun _ => rfl, rfl⟩

/-- Settles O35: an instruction that leaves a running core safe has completed, and its effect says where pc goes. -/
theorem nextPcByInstruction : Obligations.NextPcByInstruction := by
  intro i s t hr h hsafe
  have hc : Completes i s t := (safe_iff_completes hr h).mp hsafe
  cases i
  case hlt | ret =>
    subst hc
    rfl
  case ldi | prn | push | pop =>
    obtain ⟨a, -, rfl⟩ := hc
    rfl
  case mul | add | cmp =>
    obtain ⟨a, b, -, -, rfl⟩ := hc
    rfl
  case jmp =>
    obtain ⟨a, ha, rfl⟩ := hc
    exact ⟨a, ha, rfl⟩
  case jeq =>
    obtain ⟨a, ha, rfl⟩ := hc
    exact ⟨a, ha, State.branch_pc ..⟩
  case jne =>
    obtain ⟨a, ha, rfl⟩ := hc
    exact ⟨a, ha, State.branch_not_pc ..⟩
  case call =>
    obtain ⟨a, ha, -, rfl⟩ := hc
    exact ⟨a, ha, rfl⟩

end Sys2Proof.Machine
end

section
/-! What a step leaves unchanged and does not read: flags, OUT and memory by the byte at pc, and the obligations of
10_state.md, 20_memory.md and 42_compare_branch.md on the step. -/

namespace Sys2Proof.Machine

/-! ## Writes -/

/-- Settles O36: an instruction with another opcode keeps FL, and so does a fault. -/
theorem onlyCmpWritesFlags : Obligations.OnlyCmpWritesFlags := by
  intro s t h hbyte
  obtain ⟨-, ⟨i, hf, hc⟩ | ⟨c, rfl, -⟩⟩ := step_completes_or_faults h
  · exact hc.frame.fl_eq ((memRead_pc_iff hf .cmp).not.mp hbyte)
  · rfl

/-- Settles O39: an instruction with another opcode keeps memory, and every instruction keeps it outside the push's
address. -/
theorem onlyPushAndCallWriteMemory : Obligations.OnlyPushAndCallWriteMemory := by
  intro s t h
  obtain ⟨-, ⟨i, hf, hc⟩ | ⟨c, rfl, -⟩⟩ := step_completes_or_faults h
  · constructor
    · intro hpush hcall
      exact hc.frame.mem_eq ((memRead_pc_iff hf .push).not.mp hpush) ((memRead_pc_iff hf .call).not.mp hcall)
    · intro a ha
      exact hc.frame.read_eq a (s.pushAddr_eq ▸ ha)
  · exact ⟨fun _ _ => rfl, fun _ _ => rfl⟩

theorem compareFlags_mem (a b : Byte) :
    compareFlags a b ∈ [Flags.mk true false false, ⟨false, true, false⟩, ⟨false, false, true⟩] := by
  unfold compareFlags
  split
  · simp
  · split <;> simp

/-- What a completed CMP leaves in FL is a comparison (R66). -/
theorem Completes.fl_of_cmp {i : Instr} {s t : State} (h : Completes i s t) (hop : i.opcode = .cmp) :
    ∃ a b, t.fl = compareFlags a b := by
  cases i <;> cases hop
  obtain ⟨a, b, -, -, rfl⟩ := h
  exact ⟨_, _, rfl⟩

/-- Settles O19: a step that leaves the core running took no fault, so it completed the CMP at pc. -/
theorem cmpLeavesExactlyOneFlag : Obligations.CmpLeavesExactlyOneFlag := by
  intro s t h ht hbyte
  obtain ⟨-, ⟨i, hf, hc⟩ | ⟨c, rfl, -⟩⟩ := step_completes_or_faults h
  · obtain ⟨a, b, hfl⟩ := hc.fl_of_cmp ((memRead_pc_iff hf .cmp).mp hbyte)
    exact hfl ▸ compareFlags_mem a b
  · exact absurd ht nofun

/-! ## Reads -/

theorem State.branch_withOut (s : State) (c : Bool) (v : Byte) (o : List Byte) :
    { s.branch c v with out := o } = ({ s with out := o } : State).branch c v := by
  cases c <;> rfl

theorem State.branch_withFlags (s : State) (c : Bool) (v : Byte) (f : Flags) :
    { s.branch c v with fl := f } = ({ s with fl := f } : State).branch c v := by
  cases c <;> rfl

/-- An instruction but PRN completes alike with any OUT, and passes it on (R24). -/
theorem Completes.withOut {i : Instr} {s t : State} (h : Completes i s t) (hop : i.opcode ≠ .prn) (o : List Byte) :
    Completes i { s with out := o } { t with out := o } := by
  cases i
  case hlt | ret =>
    subst h
    rfl
  case prn => exact absurd rfl hop
  case ldi | push | pop | jmp =>
    obtain ⟨a, ha, rfl⟩ := h
    exact ⟨a, ha, rfl⟩
  case jeq | jne =>
    obtain ⟨a, ha, rfl⟩ := h
    exact ⟨a, ha, State.branch_withOut ..⟩
  case mul | add | cmp =>
    obtain ⟨a, b, ha, hb, rfl⟩ := h
    exact ⟨a, b, ha, hb, rfl⟩
  case call =>
    obtain ⟨a, ha, hpc, rfl⟩ := h
    exact ⟨a, ha, hpc, rfl⟩

/-- PRN appends the same byte to any OUT (R80). -/
theorem Completes.withOut_prn {ra : Byte} {s t : State} (h : Completes (.prn ra) s t) :
    ∃ v : Byte, t.out = s.out ++ [v] ∧
      ∀ o : List Byte, Completes (.prn ra) { s with out := o } { t with out := o ++ [v] } := by
  obtain ⟨a, ha, rfl⟩ := h
  exact ⟨s.reg a, rfl, fun _ => ⟨a, ha, rfl⟩⟩

/-- What a completed instruction appends to OUT, which no instruction reads (R24). -/
theorem Completes.appends {i : Instr} {s t : State} (h : Completes i s t) :
    ∃ p : List Byte, t.out = s.out ++ p ∧ p.length ≤ 1 ∧ (i.opcode ≠ .prn → p = []) ∧
      ∀ o : List Byte, Completes i { s with out := o } { t with out := o ++ p } := by
  by_cases hop : i.opcode = .prn
  · cases i <;> cases hop
    obtain ⟨v, hout, hany⟩ := h.withOut_prn
    exact ⟨[v], hout, le_rfl, fun hne => absurd rfl hne, hany⟩
  · simp only [← List.length_eq_zero_iff]
    refine ⟨[], by rw [List.append_nil, h.frame.out_eq hop], Nat.zero_le 1, fun _ => rfl, fun o => ?_⟩
    rw [List.append_nil]
    exact h.withOut hop o

/-- Settles O37: the fetch does not read OUT, a fault neither reads nor writes it, and an instruction appends to it. -/
theorem outIsAppendOnlyAndUnread : Obligations.OutIsAppendOnlyAndUnread := by
  intro s t h
  obtain ⟨hr, ⟨i, hf, hc⟩ | ⟨c, rfl, hfault⟩⟩ := step_completes_or_faults h
  · obtain ⟨p, hout, hlen, hprn, hany⟩ := hc.appends
    refine ⟨p, hout, hlen, fun hbyte => hprn ((memRead_pc_iff hf .prn).not.mp hbyte), fun o => ?_⟩
    exact step_of_completes hf (u := { s with out := o }) hr rfl rfl (hany o)
  · refine ⟨[], (List.append_nil _).symm, Nat.zero_le 1, fun _ => rfl, fun o => ?_⟩
    rw [List.append_nil]
    exact hfault { s with out := o } hr rfl rfl

/-- An instruction but CMP completes alike with any G and L, and passes them on (R21). -/
theorem Completes.withGL {i : Instr} {s t : State} (h : Completes i s t) (hop : i.opcode ≠ .cmp) (g l : Bool) :
    Completes i { s with fl := ⟨s.fl.e, g, l⟩ } { t with fl := ⟨s.fl.e, g, l⟩ } := by
  cases i
  case hlt | ret =>
    subst h
    rfl
  case cmp => exact absurd rfl hop
  case ldi | prn | push | pop | jmp =>
    obtain ⟨a, ha, rfl⟩ := h
    exact ⟨a, ha, rfl⟩
  case jeq | jne =>
    obtain ⟨a, ha, rfl⟩ := h
    exact ⟨a, ha, State.branch_withFlags ..⟩
  case mul | add =>
    obtain ⟨a, b, ha, hb, rfl⟩ := h
    exact ⟨a, b, ha, hb, rfl⟩
  case call =>
    obtain ⟨a, ha, hpc, rfl⟩ := h
    exact ⟨a, ha, hpc, rfl⟩

/-- CMP does not read the flags it overwrites (R66). -/
theorem Completes.withFlags_cmp {ra rb : Byte} {s t : State} (h : Completes (.cmp ra rb) s t) (f : Flags) :
    Completes (.cmp ra rb) { s with fl := f } t := by
  obtain ⟨a, b, ha, hb, rfl⟩ := h
  exact ⟨a, b, ha, hb, rfl⟩

/-- No instruction reads G or L (R21). -/
theorem Completes.any_GL {i : Instr} {s t : State} (h : Completes i s t) (g l : Bool) :
    ∃ f : Flags, f.e = t.fl.e ∧ Completes i { s with fl := ⟨s.fl.e, g, l⟩ } { t with fl := f } := by
  by_cases hop : i.opcode = .cmp
  · cases i <;> cases hop
    exact ⟨t.fl, rfl, h.withFlags_cmp _⟩
  · exact ⟨⟨s.fl.e, g, l⟩, by rw [h.frame.fl_eq hop], h.withGL hop g l⟩

/-- Settles O38: the fetch and the faults do not read the flags, and no instruction reads G or L. -/
theorem flagsGAndLAreNeverRead : Obligations.FlagsGAndLAreNeverRead := by
  intro s t g l h
  obtain ⟨hr, ⟨i, hf, hc⟩ | ⟨c, rfl, hfault⟩⟩ := step_completes_or_faults h
  · obtain ⟨f, hfe, hany⟩ := hc.any_GL g l
    exact ⟨f, hfe, step_of_completes hf (u := { s with fl := ⟨s.fl.e, g, l⟩ }) hr rfl rfl hany⟩
  · exact ⟨⟨s.fl.e, g, l⟩, rfl, hfault { s with fl := ⟨s.fl.e, g, l⟩ } hr rfl rfl⟩

/-- Settles O40: the pushed byte is the byte at the next pc, and the next step's fetch begins with it. -/
theorem fetchSeesThePushedByte : Obligations.FetchSeesThePushedByte := by
  intro s t ra a hm hr ha ha7 hpush haddr
  have ht : t = (s.push (s.spDec.reg a)).advance 2 := Completes.eq_of_exec (i := .push ra) ⟨a, ha, rfl⟩ hpush
  have hrun : t.run = .running := by rw [ht]; exact hr
  have hpc : t.pc = s.pushAddr := by rw [ht]; exact haddr
  have hbyte : t.mem.read t.pc = s.reg a := by
    rw [hpc, ht, State.advance_mem, ← s.spDec_reg_other ha7]
    exact State.read_push hm _
  have hle : t.pc ≤ 255 := by have := s.pushAddr_lt; omega
  constructor
  · intro hhlt
    exact step_of_fetch_ok hrun (fetch_hlt hle (hbyte.trans hhlt))
  · intro hillegal
    exact step_of_fetch_error hrun (fetch_eq_decodeError.mpr ⟨hle, hbyte ▸ hillegal, hbyte, rfl⟩)

end Sys2Proof.Machine
end

section
/-! Reset, the load and the invariant: every loaded state meets it, every step keeps it, and the obligations of
10_state.md, 20_memory.md and 70_reset_and_hazards.md on them. -/

namespace Sys2Proof.Machine

/-- Settles O42: the range check of both primitives fails. -/
theorem noAccessAbove255 : Obligations.NoAccessAbove255 :=
  fun s _ _ h => ⟨s.memRead_of_gt h, if_pos h⟩

/-- Settles O43: `Flags.byte` computes on the eight values of the three flags. -/
theorem flagByteLayout : Obligations.FlagByteLayout := by
  have h : ∀ e g l : Bool, (Flags.mk e g l).byte.getLsbD 0 = e ∧ (Flags.mk e g l).byte.getLsbD 1 = g ∧
      (Flags.mk e g l).byte.getLsbD 2 = l ∧ (Flags.mk e g l).byte.toNat < 8 := by decide
  exact fun ⟨e, g, l⟩ => h e g l

/-- Settles O45: each field is the reset state's own. -/
theorem resetRest : Obligations.ResetRest := ⟨rfl, rfl, rfl, rfl, Memory.read_nil⟩

/-! ## The load -/

/-- The load starts a run exactly from the images of at most 256 bytes, in the reset state with the image placed (R99;
D12). -/
theorem boot_eq_ok {img : List Byte} {s : State} :
    boot img = .ok s ↔ img.length ≤ 256 ∧ s = { State.reset with mem := loadFrom 0 img [] } := by
  unfold boot
  split
  case isTrue h => exact ⟨fun hs => ⟨h, (Except.ok.inj hs).symm⟩, fun ⟨_, hs⟩ => congrArg _ hs.symm⟩
  case isFalse h => exact ⟨nofun, fun ⟨hlen, _⟩ => absurd hlen h⟩

/-- A loaded cell holds the image's byte, and every other cell 0 (R97, R99). -/
theorem read_loadFrom_nil {img : List Byte} (h : img.length ≤ 256) (a : Nat) :
    (loadFrom 0 img []).read a = img.getD a 0 := by
  rw [read_loadFrom (m := []) reset_mem_wf 0 img (by omega)]
  split
  · rfl
  · exact (List.getD_eq_default img 0 (by omega)).symm

/-- Settles O46: the load's guard is the bound on the image, and the loaded cells are the image. -/
theorem loadPlacesTheImage : Obligations.LoadPlacesTheImage := by
  intro img
  constructor
  · intro h
    exact ⟨_, boot_eq_ok.mpr ⟨h, rfl⟩, rfl, read_loadFrom_nil h⟩
  · intro h
    exact if_neg (Nat.not_le.mpr h)

/-! ## The invariant -/

theorem runInfoTrue_of_running {s : State} (h : s.run = .running) : RunInfoTrue s := by
  simp only [RunInfoTrue, h]

/-- Settles O47: at reset every clause is a closed fact. -/
theorem resetMeetsTheInvariant : Obligations.ResetMeetsTheInvariant :=
  ⟨Nat.zero_le _, reset_mem_wf, rfl, runInfoTrue_of_running rfl⟩

/-- Settles O48: the load changes memory alone, and keeps it canonical. -/
theorem loadedStatesMeetTheInvariant : Obligations.LoadedStatesMeetTheInvariant := by
  intro img s h
  obtain ⟨hlen, rfl⟩ := boot_eq_ok.mp h
  exact ⟨Nat.zero_le _, loadFrom_wf reset_mem_wf 0 img (by omega), rfl, runInfoTrue_of_running rfl⟩

/-- An instruction that fits below 256 leaves pc at most 256: past itself, or at a byte (R18, R19). -/
theorem Completes.pc_le {i : Instr} {s t : State} (h : Completes i s t) (hfit : s.pc + i.opcode.length ≤ 256) :
    t.pc ≤ 256 := by
  have toNat_le (v : Byte) : v.toNat ≤ 256 := v.isLt.le
  cases i
  case hlt =>
    subst h
    exact (Nat.le_add_right ..).trans hfit
  case ret =>
    subst h
    exact toNat_le _
  case ldi | prn | push | pop =>
    obtain ⟨a, -, rfl⟩ := h
    exact hfit
  case mul | add | cmp =>
    obtain ⟨a, b, -, -, rfl⟩ := h
    exact hfit
  case jmp =>
    obtain ⟨a, -, rfl⟩ := h
    exact toNat_le _
  case jeq | jne =>
    obtain ⟨a, -, rfl⟩ := h
    rw [State.branch_pc]
    split
    · exact toNat_le _
    · exact hfit
  case call =>
    obtain ⟨a, -, -, rfl⟩ := h
    exact toNat_le _

/-- A completed instruction keeps memory canonical: the push's address is below 256 (R71). -/
theorem Completes.mem_wf {i : Instr} {s t : State} (h : Completes i s t) (hm : s.mem.wf = true) :
    t.mem.wf = true := by
  by_cases hop : i.opcode = .push ∨ i.opcode = .call
  · rcases hop with hop | hop <;> cases i <;> cases hop
    · obtain ⟨a, -, rfl⟩ := h
      exact Memory.write_wf hm s.pushAddr_lt _
    · obtain ⟨a, -, -, rfl⟩ := h
      exact Memory.write_wf hm s.pushAddr_lt _
  · obtain ⟨hpush, hcall⟩ := not_or.mp hop
    rw [h.frame.mem_eq hpush hcall, hm]

theorem compareFlags_exclusive (a b : Byte) : (compareFlags a b).exclusive = true := by
  unfold compareFlags
  split
  · rfl
  · split <;> rfl

/-- A completed instruction keeps the flags exclusive: CMP sets exactly one (R66). -/
theorem Completes.fl_exclusive {i : Instr} {s t : State} (h : Completes i s t) (hfl : s.fl.exclusive = true) :
    t.fl.exclusive = true := by
  by_cases hop : i.opcode = .cmp
  · obtain ⟨a, b, hcmp⟩ := h.fl_of_cmp hop
    rw [hcmp, compareFlags_exclusive]
  · rw [h.frame.fl_eq hop, hfl]

/-- A completed instruction that was fetched at pc leaves RUN running, or halted at the HLT (R78). -/
theorem Completes.run_info {i : Instr} {s t : State} (h : Completes i s t) (hr : s.run = .running)
    (hf : fetch s = .ok i) : RunInfoTrue t := by
  by_cases hi : i = .hlt
  · subst hi
    obtain rfl : t = s.halt := h
    exact (memRead_pc_iff hf .hlt).mpr rfl
  · exact runInfoTrue_of_running (h.run_eq.trans ((if_neg hi).trans hr))

/-- What a failing fetch records is true of the machine: with pc at most 256, no address but 256 is named (R83, R84). -/
theorem runInfoTrue_of_fetch_error {s : State} {c : FaultCause} (hpc : s.pc ≤ 256) (h : fetch s = .error c) :
    RunInfoTrue (s.enterFault c) := by
  rcases fetch_cases s with ⟨hgt, hf⟩ | ⟨hle, hnone, hf⟩ | ⟨op, -, -, -, hf⟩ | ⟨op, bs, -, -, -, -, hf⟩ <;>
    rw [hf] at h <;> cases h
  · exact ⟨by omega, rfl⟩
  · exact ⟨rfl, s.memRead_of_le hle, hnone⟩
  · exact ⟨rfl, rfl⟩

/-- What a fault after the fetch records is true of the machine: a CALL that fits and cannot return stands at 254 (R75,
R85). -/
theorem Faults.run_info {i : Instr} {s : State} {c : FaultCause} (h : Faults i s c)
    (hfit : s.pc + i.opcode.length ≤ 256) : RunInfoTrue (s.enterFault c) := by
  rcases h with ⟨f, hf, rfl⟩ | ⟨ra, rfl, hpc, rfl⟩
  · exact ⟨rfl, hf⟩
  · have hlen : (Instr.call ra).opcode.length = 2 := rfl
    exact ⟨by omega, rfl⟩

theorem Inv.enterFault {s : State} {c : FaultCause} (h : Inv s) (hc : RunInfoTrue (s.enterFault c)) :
    Inv (s.enterFault c) :=
  ⟨h.pc_le, h.mem_wf, h.fl_exclusive, hc⟩

/-- Settles O49: a fault changes RUN to a true record, and an instruction that was fetched fits below 256 and keeps each
clause. -/
theorem stepKeepsTheInvariant : Obligations.StepKeepsTheInvariant := by
  intro s t hinv h
  obtain ⟨hr, ⟨c, hf, rfl⟩ | ⟨i, hf, he⟩⟩ := step_next h
  · exact hinv.enterFault (runInfoTrue_of_fetch_error hinv.pc_le hf)
  · obtain ⟨-, -, hfit⟩ := fetch_ok hf
    rcases exec_cases he with hc | ⟨c, hc, rfl⟩
    · exact ⟨hc.pc_le hfit, hc.mem_wf hinv.mem_wf, hc.fl_exclusive hinv.fl_exclusive, hc.run_info hr hf⟩
    · exact hinv.enterFault (hc.run_info hfit)

/-- Settles O50: the invariant holds after the load and every step keeps it. -/
theorem reachableStatesMeetTheInvariant : Obligations.ReachableStatesMeetTheInvariant := by
  intro img s h
  induction h with
  | start hboot => exact loadedStatesMeetTheInvariant img _ hboot
  | next _ hstep ih => exact stepKeepsTheInvariant _ _ ih hstep

end Sys2Proof.Machine
end

section
/-! Texts, the tools: splitting at a character and stripping white space. -/

namespace Sys2Proof.Machine

theorem splitAtChar_of_not_mem {c : Char} {l : List Char} (h : c ∉ l) : splitAtChar c l = [l] := by
  induction l with
  | nil => rfl
  | cons x xs ih =>
    obtain ⟨hx, hxs⟩ := not_or.mp (List.mem_cons.not.mp h)
    simp only [splitAtChar, if_neg (Ne.symm hx), ih hxs]

theorem splitAtChar_append {c : Char} {l : List Char} (h : c ∉ l) (rest : List Char) :
    splitAtChar c (l ++ c :: rest) = l :: splitAtChar c rest := by
  induction l with
  | nil => simp only [List.nil_append, splitAtChar, if_true]
  | cons x xs ih =>
    obtain ⟨hx, hxs⟩ := not_or.mp (List.mem_cons.not.mp h)
    simp only [List.cons_append, splitAtChar, if_neg (Ne.symm hx), ih hxs]

theorem dropWhile_isBlank_eq_self {l : List Char} (h : ∀ c ∈ l.head?, isBlank c = false) :
    l.dropWhile isBlank = l := by
  cases l with
  | nil => rfl
  | cons x xs => exact List.dropWhile_cons_of_neg (by simp [h x rfl])

theorem strip_eq_self {l : List Char} (hhead : ∀ c ∈ l.head?, isBlank c = false)
    (hlast : ∀ c ∈ l.getLast?, isBlank c = false) : strip l = l := by
  have hrev : l.reverse.dropWhile isBlank = l.reverse := dropWhile_isBlank_eq_self (by rwa [List.head?_reverse])
  rw [strip, dropWhile_isBlank_eq_self hhead, hrev, List.reverse_reverse]

theorem strip_of_no_blank {l : List Char} (h : ∀ c ∈ l, isBlank c = false) : strip l = l :=
  strip_eq_self (fun c hc => h c (List.mem_of_mem_head? hc)) (fun c hc => h c (List.mem_of_mem_getLast? hc))

/-- Stripping leaves a text alone that begins and ends with pieces without white space. -/
theorem strip_of_no_blank_ends {u v : List Char} (hu : u ≠ []) (hub : ∀ c ∈ u, isBlank c = false) (m : List Char)
    (hv : v ≠ []) (hvb : ∀ c ∈ v, isBlank c = false) : strip (u ++ (m ++ v)) = u ++ (m ++ v) := by
  refine strip_eq_self (fun c hc => hub c ?_) (fun c hc => hvb c ?_)
  · rw [List.head?_append_of_ne_nil _ hu] at hc
    exact List.mem_of_mem_head? hc
  · rw [← List.append_assoc, List.getLast?_append_of_ne_nil _ hv] at hc
    exact List.mem_of_mem_getLast? hc

theorem strip_space_cons (l : List Char) : strip (' ' :: l) = strip l := rfl

end Sys2Proof.Machine
end

section
/-! The image text: a byte's literal reads back as the byte, and the obligation of 30_encoding.md on image texts. -/

namespace Sys2Proof.Machine

/-- The characters of a byte's literal are binary digits (R52). -/
theorem digit_of_mem_byteText {b : Byte} {c : Char} (h : c ∈ byteText b) : c = '0' ∨ c = '1' := by
  obtain ⟨k, -, rfl⟩ := List.mem_map.mp h
  split
  · exact .inr rfl
  · exact .inl rfl

/-- The digit written for bit `i` reads as bit `i`. -/
theorem value_binaryDigit (b : Byte) (i : Nat) :
    (if (if b.getLsbD i then '1' else '0') == '1' then 1 else 0) = b.toNat / 2 ^ i % 2 := by
  rw [← BitVec.testBit_toNat, Nat.testBit_eq_decide_div_mod_eq]
  rcases Nat.mod_two_eq_zero_or_one (b.toNat / 2 ^ i) with h | h <;> simp [h]

/-- The first `k` digits of a byte's literal are its `k` high bits. -/
theorem foldl_take_byteText (b : Byte) {k : Nat} (hk : k ≤ 8) :
    ((List.range k).map fun j => if b.getLsbD (7 - j) then '1' else '0').foldl
      (fun n c => 2 * n + (if c == '1' then 1 else 0)) 0 = b.toNat / 2 ^ (8 - k) := by
  induction k with
  | zero => exact (Nat.div_eq_of_lt b.isLt).symm
  | succ k ih =>
    obtain ⟨hexp, hexp'⟩ : 8 - k = 7 - k + 1 ∧ 8 - (k + 1) = 7 - k := by omega
    rw [List.range_succ, List.map_append, List.foldl_append, ih (by omega), hexp, hexp',
      Nat.pow_succ, ← Nat.div_div_eq_div_mul]
    simp only [List.map_cons, List.map_nil, List.foldl_cons, List.foldl_nil]
    rw [value_binaryDigit, Nat.div_add_mod]

theorem parseBinary_byteText (b : Byte) : parseBinary (byteText b) = some b.toNat := by
  have hdigits : (byteText b).all (fun c => c == '0' || c == '1') = true := by
    rw [List.all_eq_true]
    intro c hc
    rcases digit_of_mem_byteText hc with rfl | rfl <;> rfl
  have hne : byteText b ≠ [] := by simp [byteText]
  have hvalue := foldl_take_byteText b le_rfl
  rw [Nat.sub_self, Nat.pow_zero, Nat.div_one] at hvalue
  unfold parseBinary
  rw [if_pos (by simp only [hdigits, hne, ne_eq, not_false_eq_true, decide_true, Bool.and_self])]
  exact congrArg some hvalue

/-- A byte's literal is a line of the image text that reads as the byte (R52). -/
theorem parseImageLine_byteText (b : Byte) : parseImageLine (byteText b) = some (some b) := by
  have hcomment : (byteText b).takeWhile (fun c => c != '#') = byteText b := by
    rw [List.takeWhile_eq_self_iff]
    intro c hc
    rcases digit_of_mem_byteText hc with rfl | rfl <;> rfl
  have hstrip : strip (byteText b) = byteText b := strip_of_no_blank fun c hc => by
    rcases digit_of_mem_byteText hc with rfl | rfl <;> rfl
  have hne : byteText b ≠ [] := by simp [byteText]
  have hle : b.toNat ≤ 255 := Nat.le_of_lt_succ b.isLt
  simp only [parseImageLine, hcomment, hstrip, if_neg hne, parseBinary_byteText, if_pos hle]
  rw [byteOf_toNat_self]

/-- Line by line, an image text is the image's bytes and one empty line at its end. -/
theorem mapM_parseImageLine_imageText (img : List Byte) :
    (splitAtChar '\n' (imageText img)).mapM parseImageLine = some (img.map some ++ [none]) := by
  induction img with
  | nil => rfl
  | cons b bs ih =>
    have hline : '\n' ∉ byteText b := fun h => by rcases digit_of_mem_byteText h with h | h <;> cases h
    have htext : imageText (b :: bs) = byteText b ++ '\n' :: imageText bs := by simp [imageText]
    rw [htext, splitAtChar_append hline, List.mapM_cons, parseImageLine_byteText, ih]
    rfl

theorem parseImage_imageText (img : List Byte) : parseImage (imageText img) = some img := by
  rw [parseImage, mapM_parseImageLine_imageText, Option.map_some, List.filterMap_append, List.filterMap_map]
  simp

/-- Settles O52: each line reads back as its byte, and booting a text is booting the image read from it. -/
theorem imageTextReadsBack : Obligations.ImageTextReadsBack :=
  fun img => ⟨parseImage_imageText img, by rw [bootText, parseImage_imageText]⟩

end Sys2Proof.Machine
end

section
/-! The assembly text: the words an instruction's spelling is made of, how the assembler takes it apart again, and the
obligation of 30_encoding.md on it. -/

namespace Sys2Proof.Machine

/-! ## Words -/

/-- A character that neither separates statements or operands nor is white space. -/
def isWordChar (c : Char) : Bool := !isBlank c && c != ',' && c != ';' && c != '\n'

/-- A mnemonic or an operand's spelling. -/
def IsWord (w : List Char) : Prop := w ≠ [] ∧ ∀ c ∈ w, isWordChar c = true

theorem isBlank_of_isWordChar {c : Char} (h : isWordChar c = true) : isBlank c = false := by
  simp only [isWordChar, Bool.and_eq_true, Bool.not_eq_true'] at h
  exact h.1.1.1

theorem IsWord.not_mem {w : List Char} (h : IsWord w) {c : Char} (hc : isWordChar c = false) : c ∉ w :=
  fun hmem => absurd (h.2 c hmem) (by simp [hc])

theorem IsWord.isBlank_eq {w : List Char} (h : IsWord w) {c : Char} (hc : c ∈ w) : isBlank c = false :=
  isBlank_of_isWordChar (h.2 c hc)

theorem isWord_mnemonic (op : Opcode) : IsWord op.mnemonic := by
  cases op <;> exact ⟨nofun, List.all_eq_true.mp rfl⟩

theorem isWordChar_digitChar : ∀ n < 16, isWordChar (digitChar n) = true := by decide

theorem isWord_regText {f : Byte} (h : namesRegister f = true) : IsWord (regText f) := by
  have hf : f.toNat ≤ 7 := of_decide_eq_true h
  refine ⟨by simp [regText], ?_⟩
  simp only [regText, List.forall_mem_cons]
  exact ⟨by decide, isWordChar_digitChar _ (by omega), nofun⟩

theorem isWord_immText (b : Byte) : IsWord (immText b) := by
  have hb := b.isLt
  refine ⟨by simp [immText], ?_⟩
  simp only [immText, List.forall_mem_cons]
  exact ⟨by decide, by decide, isWordChar_digitChar _ (by omega), isWordChar_digitChar _ (by omega), nofun⟩

/-! ## The spelling as words -/

/-- The spellings of an instruction's operands, in encoding order (R50). -/
def operandTexts : Instr → List (List Char)
  | .hlt | .ret => []
  | .ldi ra imm => [regText ra, immText imm]
  | .prn ra | .push ra | .pop ra | .call ra | .jmp ra | .jeq ra | .jne ra => [regText ra]
  | .mul ra rb | .add ra rb | .cmp ra rb => [regText ra, regText rb]

/-- Words with a comma between each two. -/
def commaJoin (w : List Char) (ws : List (List Char)) : List Char := w ++ ws.flatMap (',' :: ·)

/-- What stands after the mnemonic: nothing, or a space and the operands (R50). -/
def operandTail : List (List Char) → List Char
  | [] => []
  | w :: ws => ' ' :: commaJoin w ws

theorem operandText_eq (i : Instr) : operandText i = operandTail (operandTexts i) := by
  cases i <;> rfl

theorem isWord_operandTexts {i : Instr} (h : i.wellFormed = true) : ∀ w ∈ operandTexts i, IsWord w := by
  cases i
  case hlt | ret => exact nofun
  case ldi ra imm =>
    simp only [operandTexts, List.forall_mem_cons]
    exact ⟨isWord_regText h, isWord_immText imm, nofun⟩
  case prn | push | pop | call | jmp | jeq | jne =>
    simp only [operandTexts, List.forall_mem_cons]
    exact ⟨isWord_regText h, nofun⟩
  case mul | add | cmp =>
    obtain ⟨ha, hb⟩ := Bool.and_eq_true_iff.mp h
    simp only [operandTexts, List.forall_mem_cons]
    exact ⟨isWord_regText ha, isWord_regText hb, nofun⟩

theorem commaJoin_ne_nil {w : List Char} (hw : IsWord w) (ws : List (List Char)) : commaJoin w ws ≠ [] :=
  List.append_ne_nil_of_left_ne_nil hw.1 _

section Words

variable {w : List Char} {ws : List (List Char)} (hw : IsWord w) (hws : ∀ v ∈ ws, IsWord v)
include hw hws

/-- The characters of joined words are the words' own and commas. -/
theorem mem_commaJoin {c : Char} (h : c ∈ commaJoin w ws) : isWordChar c = true ∨ c = ',' := by
  rcases List.mem_append.mp h with h | h
  · exact .inl (hw.2 c h)
  · obtain ⟨v, hv, h⟩ := List.mem_flatMap.mp h
    rcases List.mem_cons.mp h with h | h
    · exact .inr h
    · exact .inl ((hws v hv).2 c h)

theorem isBlank_of_mem_commaJoin {c : Char} (h : c ∈ commaJoin w ws) : isBlank c = false := by
  rcases mem_commaJoin hw hws h with h | rfl
  · exact isBlank_of_isWordChar h
  · rfl

theorem strip_commaJoin : strip (commaJoin w ws) = commaJoin w ws :=
  strip_of_no_blank fun _ => isBlank_of_mem_commaJoin hw hws

end Words

/-- Splitting joined pieces at the commas gives the pieces back, if no piece holds a comma. -/
theorem splitAtChar_commaJoin {w : List Char} {ws : List (List Char)} (hw : ',' ∉ w) (hws : ∀ v ∈ ws, ',' ∉ v) :
    splitAtChar ',' (commaJoin w ws) = w :: ws := by
  induction ws generalizing w with
  | nil => rw [commaJoin, List.flatMap_nil, List.append_nil, splitAtChar_of_not_mem hw]
  | cons v vs ih =>
    obtain ⟨hv, hvs⟩ := List.forall_mem_cons.mp hws
    have hjoin : commaJoin w (v :: vs) = w ++ ',' :: commaJoin v vs := by simp [commaJoin]
    rw [hjoin, splitAtChar_append hw, ih hv hvs]

/-- The assembler takes the operands apart as they were put together (R50). -/
theorem parseOperands_operandTail {ws : List (List Char)} (h : ∀ w ∈ ws, IsWord w) :
    parseOperands (operandTail ws) = ws := by
  cases ws with
  | nil => rfl
  | cons w ws =>
    obtain ⟨hw, hws⟩ := List.forall_mem_cons.mp h
    have hcomma {v : List Char} (hv : IsWord v) : ',' ∉ v := hv.not_mem rfl
    have hstrip {v : List Char} (hv : IsWord v) : strip v = v := strip_of_no_blank fun _ => hv.isBlank_eq
    have hsplit : splitAtChar ',' (' ' :: commaJoin w ws) = (' ' :: w) :: ws :=
      splitAtChar_commaJoin (w := ' ' :: w) (by simp [hcomma hw]) fun v hv => hcomma (hws v hv)
    have hne : strip (' ' :: commaJoin w ws) ≠ [] := by
      rw [strip_space_cons, strip_commaJoin hw hws]
      exact commaJoin_ne_nil hw ws
    rw [operandTail, parseOperands, if_neg hne, hsplit, List.map_cons, strip_space_cons, hstrip hw]
    rw [List.map_congr_left fun v hv => hstrip (hws v hv), List.map_id']

/-! ## Operands read back -/

theorem parseReg_regText {f : Byte} (h : namesRegister f = true) : parseReg (regText f) = some f := by
  obtain ⟨r, hr⟩ := exists_names_iff.mpr h
  have hf : f = byteOf r.index := by rw [← hr, byteOf_toNat_self]
  rw [hf]
  cases r <;> rfl

theorem digitValue_digitChar : ∀ n < 16, digitValue (digitChar n) = some n := by decide

theorem parseImm_immText (b : Byte) : parseImm (immText b) = some b := by
  have hb := b.isLt
  have hlow : b.toNat % 16 < 16 := Nat.mod_lt _ (by decide)
  have hhigh : b.toNat / 16 < 16 := by omega
  have hdigits : parseDigits 16 0 [digitChar (b.toNat / 16), digitChar (b.toNat % 16)] = some b.toNat := by
    simp only [parseDigits, digitValue_digitChar _ hhigh, digitValue_digitChar _ hlow, if_pos hhigh, if_pos hlow]
    exact congrArg some (by omega)
  simp only [immText, parseImm, List.length_cons, List.length_nil, if_true, hdigits, Option.map_some]
  rw [byteOf_toNat_self]

/-- The operands' spellings build the instruction (R50). -/
theorem buildInstr_operandTexts {i : Instr} (h : i.wellFormed = true) :
    buildInstr i.opcode (operandTexts i) = some i := by
  cases i
  case hlt | ret => rfl
  case ldi =>
    simp [buildInstr, Instr.opcode, Opcode.format, operandTexts, parseReg_regText h, parseImm_immText, Opcode.toInstr]
  case prn | push | pop | call | jmp | jeq | jne =>
    simp [buildInstr, Instr.opcode, Opcode.format, operandTexts, parseReg_regText h, Opcode.toInstr]
  case mul | add | cmp =>
    obtain ⟨ha, hb⟩ := Bool.and_eq_true_iff.mp h
    simp [buildInstr, Instr.opcode, Opcode.format, operandTexts, parseReg_regText ha, parseReg_regText hb,
      Opcode.toInstr]

/-! ## The statement -/

theorem opcodeNamed_mnemonic (op : Opcode) : opcodeNamed op.mnemonic = some op := by
  cases op <;> rfl

theorem instrText_eq (i : Instr) : instrText i = i.opcode.mnemonic ++ operandTail (operandTexts i) := by
  rw [instrText, operandText_eq]

/-- The mnemonic ends where the first white space stands. -/
theorem takeWhile_operandTail (ws : List (List Char)) : (operandTail ws).takeWhile (fun c => !isBlank c) = [] := by
  cases ws <;> rfl

theorem dropWhile_operandTail (ws : List (List Char)) :
    (operandTail ws).dropWhile (fun c => !isBlank c) = operandTail ws := by
  cases ws <;> rfl

/-- A mnemonic and its operands begin and end with a word. -/
theorem strip_append_operandTail {m : List Char} {ws : List (List Char)} (hm : IsWord m) (hws : ∀ w ∈ ws, IsWord w) :
    strip (m ++ operandTail ws) = m ++ operandTail ws := by
  cases ws with
  | nil =>
    rw [operandTail, List.append_nil]
    exact strip_of_no_blank fun _ => hm.isBlank_eq
  | cons w ws =>
    obtain ⟨hw, hws⟩ := List.forall_mem_cons.mp hws
    exact strip_of_no_blank_ends hm.1 (fun _ => hm.isBlank_eq) [' '] (commaJoin_ne_nil hw ws)
      fun _ => isBlank_of_mem_commaJoin hw hws

/-- The characters of operands in their place are the words' own, commas and the space. -/
theorem mem_operandTail {ws : List (List Char)} (hws : ∀ w ∈ ws, IsWord w) {c : Char} (hc : c ∈ operandTail ws) :
    isWordChar c = true ∨ c = ',' ∨ c = ' ' := by
  cases ws with
  | nil => cases hc
  | cons w ws =>
    obtain ⟨hw, hws⟩ := List.forall_mem_cons.mp hws
    rcases List.mem_cons.mp hc with hc | hc
    · exact .inr (.inr hc)
    · exact (mem_commaJoin hw hws hc).imp_right .inl

section Statement

variable {i : Instr} (h : i.wellFormed = true)
include h

theorem strip_instrText : strip (instrText i) = instrText i := by
  rw [instrText_eq]
  exact strip_append_operandTail (isWord_mnemonic _) (isWord_operandTexts h)

/-- A character that a spelling does not use, such as the two that end a statement. -/
theorem not_mem_instrText {c : Char} (hc : isWordChar c = false) (hcomma : c ≠ ',') (hspace : c ≠ ' ') :
    c ∉ instrText i := by
  rw [instrText_eq, List.mem_append]
  rintro (hmem | hmem)
  · exact (isWord_mnemonic _).not_mem hc hmem
  · rcases mem_operandTail (isWord_operandTexts h) hmem with hword | heq | heq
    · exact absurd hword (by simp [hc])
    · exact hcomma heq
    · exact hspace heq

theorem statementsOf_instrText : statementsOf (instrText i) = [instrText i] := by
  have hne : instrText i ≠ [] := List.append_ne_nil_of_left_ne_nil (isWord_mnemonic _).1 _
  rw [statementsOf, splitAtChar_of_not_mem (not_mem_instrText h rfl (by decide) (by decide)), List.flatMap_singleton,
    splitAtChar_of_not_mem (not_mem_instrText h rfl (by decide) (by decide))]
  refine List.filter_eq_self.mpr fun l hl => ?_
  rw [List.mem_singleton.mp hl, strip_instrText h, Bool.not_eq_true', List.isEmpty_eq_false_iff]
  exact hne

theorem parseStatement_instrText : parseStatement (instrText i) = some i := by
  have hword : ∀ c ∈ i.opcode.mnemonic, (!isBlank c) = true := fun c hc => by
    rw [(isWord_mnemonic _).isBlank_eq hc]
    rfl
  simp only [parseStatement, strip_instrText h]
  rw [instrText_eq, List.takeWhile_append_of_pos hword, List.dropWhile_append_of_pos hword, takeWhile_operandTail,
    dropWhile_operandTail, List.append_nil, opcodeNamed_mnemonic, parseOperands_operandTail (isWord_operandTexts h)]
  exact buildInstr_operandTexts h

end Statement

/-- Settles O51: the spelling is one statement, which reads back as the instruction. -/
theorem canonicalTextAssembles : Obligations.CanonicalTextAssembles := by
  intro i h
  rw [assemble, statementsOf_instrText h, List.mapM_cons, parseStatement_instrText h]
  exact congrArg some (List.append_nil _)

end Sys2Proof.Machine
end
